-- ==== Sys2Proof/Word.lean ====
section
/-! DEFINITION. The value types the spec computes with: 32-bit integers and texts. -/

namespace Sys2Proof

/-- A 32-bit pattern. As an Integer value or a number literal it is the signed `i32` that `BitVec.toInt` reads from
it (00_scope.md R16, R19); as a descriptor it is the bit pattern of 30_encoding.md R90. -/
abbrev Word := BitVec 32

/-- A finite string, uninterpreted but for Echo's digits and IInput's parse (10_state.md R31). Characters are Lean's
`Char`. DESIGN CHOICE, log entry 5 (unsafe): the spec names no alphabet. -/
abbrev Text := List Char

/-- `2^31 - 1`, the upper end of `i32`, of `pc`, of `MEM_SIZE` and of `REG_COUNT` (00_scope.md R13, R15, R16). -/
def maxI32 : Nat := 2147483647

end Sys2Proof
end

