-- ==== Sys2Proof/Operand.lean ====
section
/-! DEFINITION. The names of the fourteen instructions and the operand forms they take. -/

namespace Sys2Proof

/-- The closed set of fourteen instructions (00_scope.md R2, 30_encoding.md R105). -/
inductive Opcode where
  | add | mul | decrement | testEquals | jump | jumpIfTrue | call | ret | push | pop | move | echo | iinput | halt
  deriving DecidableEq, Repr, Inhabited

/-- `D` of 30_encoding.md R101: a register or an offset-indirect memory operand (20_memory.md R80). -/
inductive Loc where
  /-- `Reg(i)`: general register `i` itself. -/
  | reg (i : Nat)
  /-- `Ind(i, off)`: the slot whose index is the Integer in register `i` plus `off`. -/
  | ind (i : Nat) (off : Int)
  deriving DecidableEq, Repr, Inhabited

/-- `S` of 30_encoding.md R101: what Move reads (20_memory.md R80). -/
inductive Src where
  | loc (d : Loc)
  /-- `Num(n)`: a number literal, an `i32`. -/
  | num (n : Word)
  deriving DecidableEq, Repr, Inhabited

end Sys2Proof
end

