-- ==== Sys2Proof/Syntax.lean ====
section
/-! DEFINITION. The instructions, one constructor for each row of spec/opcode_table.json. -/

namespace Sys2Proof

/-- An instruction as 30_encoding.md R101 lists it. `i`, `j`, `k` are register indices, `t` and `a` are `i32`s.
The bounds on indices and offsets are `Instr.wf`. -/
inductive Instr where
  /-- 41_arith.md R151: `ri := rj + rk`. -/
  | add (i j k : Nat)
  /-- 41_arith.md R152: `ri := rj * rk`. -/
  | mul (i j k : Nat)
  /-- 41_arith.md R153: `ri := ri - 1`. -/
  | decrement (i : Nat)
  /-- 41_arith.md R160: `flag := (ri = rj)`. -/
  | testEquals (i j : Nat)
  /-- 42_control.md R171. -/
  | jump (t : Word)
  /-- 42_control.md R175. -/
  | jumpIfTrue (t : Word)
  /-- 42_control.md R176. -/
  | call (t : Word)
  /-- 42_control.md R177. -/
  | ret
  /-- 43_stack.md R190. -/
  | push (i : Nat)
  /-- 43_stack.md R192. -/
  | pop (i : Nat)
  /-- 44_move.md R200: `D := S`. -/
  | move (d : Loc) (src : Src)
  /-- 45_io_system.md R211. -/
  | echo (d : Loc)
  /-- 45_io_system.md R215. -/
  | iinput (a : Word)
  /-- 45_io_system.md R216. -/
  | halt
  deriving DecidableEq, Repr, Inhabited

end Sys2Proof
end

