-- ==== Sys2Proof/Value.lean ====
section
/-! DEFINITION. What a memory slot or a general register holds, and what the host answers to an input request. -/

namespace Sys2Proof

/-- One Value, the content of one slot (00_scope.md R20, 10_state.md R30). -/
inductive Value where
  /-- `Int(i32)`. -/
  | int (n : Word)
  /-- `Text(String)`. -/
  | text (t : Text)
  /-- `Insn(Instr)`: an instruction handle. -/
  | insn (i : Instr)
  /-- `Empty`: what a slot nothing has written holds (10_state.md R33). -/
  | empty
  deriving DecidableEq, Repr, Inhabited

/-- The tag of a Value (00_scope.md R20). -/
inductive Tag where
  | int | text | insn | empty
  deriving DecidableEq, Repr, Inhabited

/-- The host's answer to one input request (00_scope.md R11, 45_io_system.md R214). -/
inductive Answer where
  /-- `Line(s)`, without its line terminator. -/
  | line (t : Text)
  /-- `Fail`: end of input or an I/O error. -/
  | fail
  deriving DecidableEq, Repr, Inhabited

end Sys2Proof
end

