-- ==== Sys2Proof/Config.lean ====
section
/-! DEFINITION. The configuration of a machine, and the values the spec leaves open. -/

namespace Sys2Proof

/-- Which `PARSE_INT` a run uses. The parser is an open parameter, fixed for the run (00_scope.md R17,
45_io_system.md R213). Log entry 4. -/
inductive Parser where
  /-- The recommended reading of 45_io_system.md R213. -/
  | recommended
  /-- A parser of which nothing is known: `Config.unstatedParse`. -/
  | unstated
  deriving DecidableEq, Repr, Inhabited

/-- The static configuration inputs of a run (00_scope.md R8, R13 to R15), fixed when the machine is created. -/
structure Config where
  /-- `MEM_SIZE`, the number of memory slots. -/
  memSize : Nat
  /-- `REG_COUNT`, the number of general registers. -/
  regCount : Nat
  /-- `SP_INDEX`, the index of the stack register; the spec gives it no value (R14). -/
  spIndex : Nat
  /-- The run's `PARSE_INT`. -/
  parser : Parser
  deriving DecidableEq, Repr, Inhabited

namespace Config

/-- The range of a legal configuration (00_scope.md R13, R15). -/
abbrev valid (c : Config) : Prop :=
  1 ≤ c.memSize ∧ c.memSize ≤ maxI32 ∧ c.spIndex + 1 ≤ c.regCount ∧ c.regCount ≤ maxI32

/-- The configuration of `State.reset`: the one that 95_test_vectors.md takes unless it says otherwise.
DESIGN CHOICE, log entry 1 (unsafe): the spec leaves the three numbers to the host. -/
def initial : Config := { memSize := 16, regCount := 8, spIndex := 7, parser := .unstated }

/-- `EQ_EMPTY`, draw number `n`: TestEquals on two Empty values (41_arith.md R161). Free value, log entry 2. -/
opaque eqEmpty (n : Nat) : Bool

/-- `EQ_INSN`, draw number `n`: TestEquals on the handles of `p` and `q` (41_arith.md R161). Free value, log entry 2. -/
opaque eqInsn (n : Nat) (p q : Instr) : Bool

/-- `ECHO_REPR`, draw number `n`: the text Echo writes for an Empty value or for an instruction handle
(45_io_system.md R212). Free value, log entry 3. -/
opaque echoRepr (n : Nat) (v : Value) : Text

/-- A `PARSE_INT` of which nothing is known (45_io_system.md R213). Free value, log entry 4. -/
opaque unstatedParse (line : Text) : Option Word

/-- What the host answers to input request number `n` where the state's script says nothing
(93_implementation_defined.md I9). Free value, log entry 6. -/
opaque hostAnswer (n : Nat) : Answer

end Config

end Sys2Proof
end

