-- ==== Sys2Proof/WellFormed.lean ====
section
/-! DEFINITION. Which terms of `Instr` are instructions: the bounds of 30_encoding.md R101 and 20_memory.md R80. -/

namespace Sys2Proof

/-- A register index a descriptor can carry: 0 to 255 (30_encoding.md R91). -/
def regIndexOk (i : Nat) : Bool := decide (i ≤ 255)

/-- An offset a descriptor can carry: -32768 to 32767 (30_encoding.md R93). -/
def offsetOk (off : Int) : Bool := decide (-32768 ≤ off ∧ off ≤ 32767)

def Loc.wf : Loc → Bool
  | .reg i => regIndexOk i
  | .ind i off => regIndexOk i && offsetOk off

def Src.wf : Src → Bool
  | .loc d => d.wf
  | .num _ => true

/-- A validated instruction's operands are within their bounds. Nothing else is checked before execution
(30_encoding.md R102). -/
def Instr.wf : Instr → Bool
  | .add i j k => regIndexOk i && regIndexOk j && regIndexOk k
  | .mul i j k => regIndexOk i && regIndexOk j && regIndexOk k
  | .decrement i => regIndexOk i
  | .testEquals i j => regIndexOk i && regIndexOk j
  | .jump _ => true
  | .jumpIfTrue _ => true
  | .call _ => true
  | .ret => true
  | .push i => regIndexOk i
  | .pop i => regIndexOk i
  | .move d src => d.wf && src.wf
  | .echo d => d.wf
  | .iinput _ => true
  | .halt => true

end Sys2Proof
end

