-- ==== Sys2Proof/Decode.lean ====
section
/-! DEFINITION. The descriptor codec, load-time validation, the decoder of binary instruction records, and the
encoder. -/

namespace Sys2Proof

/-! The register descriptor (30_encoding.md section 1). -/

/-- `index(d) = d & 0xFF` (R91). -/
def descIndex (d : Word) : Nat := (d &&& 0xFF#32).toNat

/-- `isIndirect(d) = (d[24] = 1)` (R92). -/
def descIndirect (d : Word) : Bool := d.getLsbD 24

/-- `offset(d) = sext_16(d[23:8])` (R93). -/
def descOffset (d : Word) : Int := (d.extractLsb' 8 16).toInt

/-- `desc(i, ind, off)` (R95). -/
def descWord (i : Nat) (ind : Bool) (off : Int) : Word :=
  ((if ind then 1#32 else 0#32) <<< 24) ||| ((BitVec.ofInt 32 off &&& 0xFFFF#32) <<< 8) ||| BitVec.ofNat 32 i

/-- The operand form of a descriptor (R97): a direct one drops `OFF`, both drop bits 31 to 25. -/
def descForm (d : Word) : Loc :=
  if descIndirect d then .ind (descIndex d) (descOffset d) else .reg (descIndex d)

/-! Instruction arguments and their validation (30_encoding.md sections 2 and 3). -/

/-- An instruction argument: its kind is a tag of its own, not a property of its value (R96). -/
inductive Arg where
  | descriptor (d : Word)
  | number (n : Word)
  | text (t : Text)
  deriving DecidableEq, Repr

/-- What validation expected of an argument (R98, R100). -/
inductive Expected where
  | descriptor
  | nonIndirectDescriptor
  | number
  | descriptorOrNumber
  deriving DecidableEq, Repr

/-- The causes of ArgumentError (60_exceptions.md R232, 30_encoding.md R106). It aborts the load, so none of these
reaches execution. -/
inductive ArgError where
  /-- `ArgumentError(op, ARITY, expected)`. -/
  | arity (op : Opcode) (expected : Nat)
  /-- `ArgumentError(op, k, expected)`, `k` counted from 0. -/
  | argument (op : Opcode) (k : Nat) (expected : Expected)
  /-- A header with a nonzero bit among 31 to 5. -/
  | reservedBits (header : Word)
  /-- Opcode number 14 or 15. -/
  | reservedOpcode (header : Word)
  /-- `K = 1` on an instruction other than Move. -/
  | kindBit (header : Word)
  /-- No header word. DESIGN CHOICE, log entry 9 (safe). -/
  | noHeader
  /-- Fewer operand words than the opcode's arity. DESIGN CHOICE, log entry 9 (safe). -/
  | truncated (op : Opcode)
  /-- Words left over after the one record an image item holds. DESIGN CHOICE, log entry 9 (safe). -/
  | trailingWords (op : Opcode)
  deriving DecidableEq, Repr

/-- The arity column of R98 and R105. -/
def Opcode.arity : Opcode → Nat
  | .add => 3
  | .mul => 3
  | .decrement => 1
  | .testEquals => 2
  | .jump => 1
  | .jumpIfTrue => 1
  | .call => 1
  | .ret => 0
  | .push => 1
  | .pop => 1
  | .move => 2
  | .echo => 1
  | .iinput => 1
  | .halt => 0

/-- Argument `k` of `op` where R98 asks for a descriptor with `I = 0`. -/
def argDirect (op : Opcode) (k : Nat) : Arg → Except ArgError Nat
  | .descriptor d =>
    if descIndirect d then .error (.argument op k .nonIndirectDescriptor) else .ok (descIndex d)
  | .number _ => .error (.argument op k .descriptor)
  | .text _ => .error (.argument op k .descriptor)

/-- Argument `k` of `op` where R98 asks for a descriptor with either `I`. -/
def argLoc (op : Opcode) (k : Nat) : Arg → Except ArgError Loc
  | .descriptor d => .ok (descForm d)
  | .number _ => .error (.argument op k .descriptor)
  | .text _ => .error (.argument op k .descriptor)

/-- Argument `k` of `op` where R98 asks for a number. -/
def argNumber (op : Opcode) (k : Nat) : Arg → Except ArgError Word
  | .number n => .ok n
  | .descriptor _ => .error (.argument op k .number)
  | .text _ => .error (.argument op k .number)

/-- Argument `k` of `op` where R98 asks for a descriptor or a number (Move's source). -/
def argSrc (op : Opcode) (k : Nat) : Arg → Except ArgError Src
  | .descriptor d => .ok (.loc (descForm d))
  | .number n => .ok (.num n)
  | .text _ => .error (.argument op k .descriptorOrNumber)

/-- No argument, or the ArgumentError of the arity. -/
def arity0 (op : Opcode) (i : Instr) : List Arg → Except ArgError Instr
  | [] => .ok i
  | _ :: _ => .error (.arity op op.arity)

/-- One argument, or the ArgumentError of the arity. -/
def arity1 (op : Opcode) (f : Arg → Except ArgError Instr) : List Arg → Except ArgError Instr
  | [a] => f a
  | [] => .error (.arity op op.arity)
  | _ :: _ :: _ => .error (.arity op op.arity)

/-- Two arguments, or the ArgumentError of the arity. -/
def arity2 (op : Opcode) (f : Arg → Arg → Except ArgError Instr) : List Arg → Except ArgError Instr
  | [a, b] => f a b
  | [] => .error (.arity op op.arity)
  | [_] => .error (.arity op op.arity)
  | _ :: _ :: _ :: _ => .error (.arity op op.arity)

/-- Three arguments, or the ArgumentError of the arity. -/
def arity3 (op : Opcode) (f : Arg → Arg → Arg → Except ArgError Instr) : List Arg → Except ArgError Instr
  | [a, b, c] => f a b c
  | [] => .error (.arity op op.arity)
  | [_] => .error (.arity op op.arity)
  | [_, _] => .error (.arity op op.arity)
  | _ :: _ :: _ :: _ :: _ => .error (.arity op op.arity)

/-- Load-time validation (R100): the arity first, then the arguments from the left, the first failure reported. -/
def validate (op : Opcode) (args : List Arg) : Except ArgError Instr :=
  match op with
  | .add => arity3 .add (fun a b c => do
      return .add (← argDirect .add 0 a) (← argDirect .add 1 b) (← argDirect .add 2 c)) args
  | .mul => arity3 .mul (fun a b c => do
      return .mul (← argDirect .mul 0 a) (← argDirect .mul 1 b) (← argDirect .mul 2 c)) args
  | .decrement => arity1 .decrement (fun a => do return .decrement (← argDirect .decrement 0 a)) args
  | .testEquals => arity2 .testEquals (fun a b => do
      return .testEquals (← argDirect .testEquals 0 a) (← argDirect .testEquals 1 b)) args
  | .jump => arity1 .jump (fun a => do return .jump (← argNumber .jump 0 a)) args
  | .jumpIfTrue => arity1 .jumpIfTrue (fun a => do return .jumpIfTrue (← argNumber .jumpIfTrue 0 a)) args
  | .call => arity1 .call (fun a => do return .call (← argNumber .call 0 a)) args
  | .ret => arity0 .ret .ret args
  | .push => arity1 .push (fun a => do return .push (← argDirect .push 0 a)) args
  | .pop => arity1 .pop (fun a => do return .pop (← argDirect .pop 0 a)) args
  | .move => arity2 .move (fun a b => do return .move (← argLoc .move 0 a) (← argSrc .move 1 b)) args
  | .echo => arity1 .echo (fun a => do return .echo (← argLoc .echo 0 a)) args
  | .iinput => arity1 .iinput (fun a => do return .iinput (← argNumber .iinput 0 a)) args
  | .halt => arity0 .halt .halt args

/-! The binary instruction record (30_encoding.md section 4). -/

/-- The opcode numbers of R105; 14 and 15 are reserved. -/
def Opcode.ofNumber (n : Nat) : Option Opcode :=
  match n with
  | 0 => some .add
  | 1 => some .mul
  | 2 => some .decrement
  | 3 => some .testEquals
  | 4 => some .jump
  | 5 => some .jumpIfTrue
  | 6 => some .call
  | 7 => some .ret
  | 8 => some .push
  | 9 => some .pop
  | 10 => some .move
  | 11 => some .echo
  | 12 => some .iinput
  | 13 => some .halt
  | _ => none

/-- `OP = H[3:0]` (R103). -/
def headerOp (h : Word) : Nat := (h.extractLsb' 0 4).toNat

/-- `K = H[4]` (R103). -/
def headerKind (h : Word) : Bool := h.getLsbD 4

/-- `H[31:5]`, which must be 0 (R103). -/
def headerReserved (h : Word) : Nat := (h.extractLsb' 5 27).toNat

/-- The kind of each operand word (R104). -/
def tagOperands (op : Opcode) (k : Bool) (ws : List Word) : List Arg :=
  match op with
  | .jump => ws.map .number
  | .jumpIfTrue => ws.map .number
  | .call => ws.map .number
  | .iinput => ws.map .number
  | .move =>
    match ws with
    | [] => []
    | a :: bs => .descriptor a :: bs.map (fun b => if k then .number b else .descriptor b)
  | .add => ws.map .descriptor
  | .mul => ws.map .descriptor
  | .decrement => ws.map .descriptor
  | .testEquals => ws.map .descriptor
  | .ret => ws.map .descriptor
  | .push => ws.map .descriptor
  | .pop => ws.map .descriptor
  | .echo => ws.map .descriptor
  | .halt => ws.map .descriptor

/-- Decoding one record at load (R106): the instruction and the words after its record, or the ArgumentError. -/
def decodeRecord : List Word → Except ArgError (Instr × List Word)
  | [] => .error .noHeader
  | h :: rest =>
    if headerReserved h ≠ 0 then .error (.reservedBits h)
    else
      match Opcode.ofNumber (headerOp h) with
      | none => .error (.reservedOpcode h)
      | some op =>
        if headerKind h && op != .move then .error (.kindBit h)
        else if rest.length < op.arity then .error (.truncated op)
        else
          match validate op (tagOperands op (headerKind h) (rest.take op.arity)) with
          | .error e => .error e
          | .ok i => .ok (i, rest.drop op.arity)

/-- The record of a table row: 32-bit words, the first in the low bits; every bit at or above `nbits` is 0. Four words
are the longest record (R105). -/
def tableWords (nbits w : Nat) : List Word :=
  let v := w % 2 ^ nbits
  [BitVec.ofNat 32 v, BitVec.ofNat 32 (v / 2 ^ 32), BitVec.ofNat 32 (v / 2 ^ 64), BitVec.ofNat 32 (v / 2 ^ 96)]

/-- The instruction the decoder reads from the bits of `w`, numbered as spec/opcode_table.json numbers them. -/
def decodeTableWord (nbits w : Nat) : Option Instr :=
  match decodeRecord (tableWords nbits w) with
  | .ok (i, _) => some i
  | .error _ => none

/-! The encoder. -/

/-- The opcode of an instruction. -/
def Instr.opcode : Instr → Opcode
  | .add _ _ _ => .add
  | .mul _ _ _ => .mul
  | .decrement _ => .decrement
  | .testEquals _ _ => .testEquals
  | .jump _ => .jump
  | .jumpIfTrue _ => .jumpIfTrue
  | .call _ => .call
  | .ret => .ret
  | .push _ => .push
  | .pop _ => .pop
  | .move _ _ => .move
  | .echo _ => .echo
  | .iinput _ => .iinput
  | .halt => .halt

/-- `desc(i, 0, 0)`. -/
def encodeReg (i : Nat) : Word := descWord i false 0

def encodeLoc : Loc → Word
  | .reg i => encodeReg i
  | .ind i off => descWord i true off

/-- The words of an instruction's record, header first (R103 to R105). -/
def encode : Instr → List Word
  | .add i j k => [0#32, encodeReg i, encodeReg j, encodeReg k]
  | .mul i j k => [1#32, encodeReg i, encodeReg j, encodeReg k]
  | .decrement i => [2#32, encodeReg i]
  | .testEquals i j => [3#32, encodeReg i, encodeReg j]
  | .jump t => [4#32, t]
  | .jumpIfTrue t => [5#32, t]
  | .call t => [6#32, t]
  | .ret => [7#32]
  | .push i => [8#32, encodeReg i]
  | .pop i => [9#32, encodeReg i]
  | .move d (.loc l) => [10#32, encodeLoc d, encodeLoc l]
  | .move d (.num n) => [26#32, encodeLoc d, n]
  | .echo d => [11#32, encodeLoc d]
  | .iinput a => [12#32, a]
  | .halt => [13#32]

end Sys2Proof
end

