-- ==== Sys2Proof/Machine/State.lean ====
section
/-! DEFINITION. The state of the machine, the errors of 60_exceptions.md, and reset. -/

namespace Sys2Proof.Machine

open Sys2Proof

/-! Slots: the content of memory and of the register file. -/

/-- Numbered slots, each holding one Value: the pairs of a number and what its slot holds, for the slots that do not
hold `Empty`. A slot that is not listed holds `Empty` (10_state.md R33, R53). Log entry 10. -/
abbrev Slots := List (Nat × Value)

/-- The one canonical form: the slot numbers rise strictly and no listed slot holds `Empty`. -/
abbrev Slots.wf (m : Slots) : Prop :=
  m.Pairwise (fun p q => p.1 < q.1) ∧ ∀ p ∈ m, p.2 ≠ .empty

/-- Memory's canonical form. -/
abbrev Memory.wf (m : Slots) : Prop := Slots.wf m

/-! Run-time errors (60_exceptions.md R230, R233). -/

/-- The six error kinds (R230). -/
inductive ErrorKind where
  | configurationError | argumentError | outOfRange | operandTypeMismatch | invalidArgument | ioFailure
  deriving DecidableEq, Repr

/-- The two index spaces (R233, 20_memory.md R65). -/
inductive Space where
  | mem | reg
  deriving DecidableEq, Repr

/-- Where an Integer, or an instruction handle, was required (R233, R235). -/
inductive Site where
  /-- The fetch of a slot that holds no instruction handle. -/
  | fetch
  /-- `(instruction, ARG k)`. -/
  | arg (op : Opcode) (k : Nat)
  /-- `(instruction, BASE k)`: the base register of an indirect operand. -/
  | base (op : Opcode) (k : Nat)
  /-- `(instruction, SP)`: the stack register. -/
  | sp (op : Opcode)
  /-- `(Ret, TARGET)`: the popped return address. -/
  | retTarget
  deriving DecidableEq, Repr

/-- Kind and detail of a run-time error (R233). -/
inductive Cause where
  /-- OutOfRange: the space and the offending index as an exact integer. -/
  | outOfRange (space : Space) (index : Int)
  /-- OperandTypeMismatch: the site and the tag found. -/
  | typeMismatch (site : Site) (tag : Tag)
  /-- InvalidArgument: the rejected program counter value. -/
  | invalidArgument (value : Int)
  deriving DecidableEq, Repr

/-- The fault record `f = (kind, at, detail)` of R233; `addr` is the record's `at`. -/
structure FaultRecord where
  addr : Nat
  cause : Cause
  deriving DecidableEq, Repr

/-- `run` (10_state.md R49). -/
inductive RunState where
  | running
  | halted
  | faulted (f : FaultRecord)
  deriving DecidableEq, Repr

/-! The state. -/

/-- The architectural state `S = (mem, x, pc, flag, run, out, in)` of 10_state.md, the configuration it runs under, and
two fields of the model's own (`script`, `draws`). -/
structure State where
  /-- `MEM_SIZE`, `REG_COUNT`, `SP_INDEX` and the run's parser (00_scope.md R8): no instruction reads or writes them
  (R48). Held here so that a statement about every state is a statement about every configuration. Log entry 1. -/
  cfg : Config
  /-- `mem` (R47). -/
  mem : Slots
  /-- `x`, the general registers (R34). -/
  x : Slots
  /-- `pc` (R39). -/
  pc : Nat
  /-- `flag` (R44). -/
  flag : Bool
  /-- `run` (R49). -/
  run : RunState
  /-- `out`: the strings Echo has appended, oldest first (R50). -/
  out : List Text
  /-- `in`: the input stream position, the number of requests the host has answered (R50). -/
  inPos : Nat
  /-- MODEL'S OWN: what the host is known to answer, by request number from 0; past its end the answer is the free
  value `Config.hostAnswer`. Log entry 6. -/
  script : List Answer
  /-- MODEL'S OWN: the number of draws made so far, the argument of the free values `Config.eqEmpty`, `Config.eqInsn`
  and `Config.echoRepr`. Log entries 2 and 3. -/
  draws : Nat
  deriving DecidableEq, Repr

/-! The reasons for which no run starts, and the refusals. -/

/-- A configuration parameter that has a range (60_exceptions.md R231). -/
inductive Parameter where
  | memSize | regCount
  deriving DecidableEq, Repr

/-- The errors after which no run starts. `boot` raises them; `step` raises none, since a run-time error is a state
(`RunState.faulted`). -/
inductive Fault where
  /-- ConfigurationError with its parameter and value (R231). Raised by `boot`. Safe: no run starts, as the spec says. -/
  | configurationError (p : Parameter) (value : Int)
  /-- ArgumentError (R232). Raised by `boot` when the load meets a malformed instruction. Safe: as the spec says. -/
  | argumentError (e : ArgError)
  /-- The image places a value at a slot the memory does not have. Raised by `boot`. DESIGN CHOICE, log entry 9 (safe):
  the spec makes the image the host's duty. -/
  | imageOutOfRange (index : Nat)
  deriving DecidableEq, Repr

/-- Refusals. -/
inductive Refusal where
  /-- An instruction without a meaning. Raised by no instruction of this model. Safe. -/
  | notModelled (mnemonic : String)
  deriving DecidableEq, Repr

/-- What a step, a meaning or a load answers. -/
abbrev Result := Host.Outcome State Fault Refusal

/-! Reset. -/

/-- The state at the start of a run under configuration `c`, before the image is loaded (10_state.md R53,
70_reset_and_hazards.md R260): every register and every slot `Empty`. `script` is what the host is known to answer. -/
def State.resetWith (c : Config) (script : List Answer) : State :=
  { cfg := c, mem := [], x := [], pc := 0, flag := false, run := .running, out := [], inPos := 0, script := script,
    draws := 0 }

/-- Reset under the configuration of log entry 1, with nothing known of the host's answers (log entry 6). -/
def State.reset : State := State.resetWith Config.initial []

end Sys2Proof.Machine
end

