-- ==== Sys2Proof/Machine/Ops.lean ====
section
/-! DEFINITION. The operations every meaning is written over: slots, registers, memory, raising an error, the program
counter, the stack register, the two ports, and the fetch. -/

namespace Sys2Proof

/-- `tag(v)` (00_scope.md R20). -/
def Value.tag : Value → Tag
  | .int _ => .int
  | .text _ => .text
  | .insn _ => .insn
  | .empty => .empty

end Sys2Proof

namespace Sys2Proof.Machine

open Sys2Proof

/-- `wrap32(n)`: the `i32` congruent to `n` modulo `2^32` (00_scope.md R19). -/
def wrap32 (n : Int) : Word := BitVec.ofInt 32 n

/-! Slots. -/

/-- The Value of slot `a`. -/
def Slots.get : Slots → Nat → Value
  | [], _ => .empty
  | (k, v) :: m, a => if k = a then v else Slots.get m a

/-- The slots with slot `a` holding `Empty`. -/
def Slots.erase (m : Slots) (a : Nat) : Slots := m.filter (fun p => p.1 != a)

/-- `m` with a pair for `a` put before the first greater slot number. -/
def Slots.insert : Slots → Nat → Value → Slots
  | [], a, v => [(a, v)]
  | (k, w) :: m, a, v => if a < k then (a, v) :: (k, w) :: m else (k, w) :: Slots.insert m a v

/-- The slots with slot `a` holding `v`, canonical if they were: `Empty` is not listed. -/
def Slots.set (m : Slots) (a : Nat) (v : Value) : Slots :=
  if v = .empty then Slots.erase m a else Slots.insert (Slots.erase m a) a v

/-! Unchecked updates of the state. Everything that reaches an instruction's operands goes through the checked
accessors below. -/

def State.setReg (s : State) (i : Nat) (v : Value) : State := { s with x := Slots.set s.x i v }

def State.setSlot (s : State) (a : Nat) (v : Value) : State := { s with mem := Slots.set s.mem a v }

def State.setPc (s : State) (p : Nat) : State := { s with pc := p }

def State.setFlag (s : State) (b : Bool) : State := { s with flag := b }

def State.setRun (s : State) (r : RunState) : State := { s with run := r }

/-- `n` draws of free values have been made. -/
def State.addDraws (s : State) (n : Nat) : State := { s with draws := s.draws + n }

/-- `Out(t)`: appends a string to the output stream (00_scope.md R25). -/
def State.emit (s : State) (t : Text) : State := { s with out := s.out ++ [t] }

/-- The output as the stream of characters of 00_scope.md R10. -/
def State.outText (s : State) : Text := s.out.flatten

/-! Checked accessors (00_scope.md R21 to R23). Each answers the cause of the error it raises; on an error nothing has
been written. -/

/-- `x[i]` (R21). -/
def readReg (i : Nat) (s : State) : Except Cause Value :=
  if i < s.cfg.regCount then .ok (Slots.get s.x i) else .error (.outOfRange .reg i)

/-- `x[i] <- v` (R21). -/
def writeReg (i : Nat) (v : Value) (s : State) : Except Cause State :=
  if i < s.cfg.regCount then .ok (s.setReg i v) else .error (.outOfRange .reg i)

/-- `MemRead(a, 1)` (R22). -/
def memRead (a : Int) (s : State) : Except Cause Value :=
  if 0 ≤ a ∧ a < s.cfg.memSize then .ok (Slots.get s.mem a.toNat) else .error (.outOfRange .mem a)

/-- `MemWrite(a, 1, v)` (R22). -/
def memWrite (a : Int) (v : Value) (s : State) : Except Cause State :=
  if 0 ≤ a ∧ a < s.cfg.memSize then .ok (s.setSlot a.toNat v) else .error (.outOfRange .mem a)

/-- `asInt(v, site)` (R23): the exact integer, in the range of `i32`. -/
def asInt (v : Value) (site : Site) : Except Cause Int :=
  match v with
  | .int n => .ok n.toInt
  | .text _ => .error (.typeMismatch site .text)
  | .insn _ => .error (.typeMismatch site .insn)
  | .empty => .error (.typeMismatch site .empty)

/-- `asInt(x[i], site)`. -/
def readInt (i : Nat) (site : Site) (s : State) : Except Cause Int :=
  match readReg i s with
  | .error c => .error c
  | .ok v => asInt v site

/-- `stackPointerValue`: the Integer in register `SP_INDEX` (20_memory.md R86). -/
def readStackPtr (op : Opcode) (s : State) : Except Cause Int := readInt s.cfg.spIndex (.sp op) s

/-- `x[SP_INDEX] <- Int(n)`. The Integer is written through `wrap32`, which no committed value needs
(43_stack.md R194). -/
def writeStackPtr (n : Int) (s : State) : Except Cause State := writeReg s.cfg.spIndex (.int (wrap32 n)) s

/-- `setPC(v)` (42_control.md R170): a negative value raises InvalidArgument; there is no upper check. -/
def setPC (v : Int) (s : State) : Except Cause State :=
  if v < 0 then .error (.invalidArgument v) else .ok (s.setPc v.toNat)

/-! Raising an error (00_scope.md R24, 60_exceptions.md R233, R241). -/

/-- Trap entry: the run ends with the fault record of the instruction at `addr`; nothing else changes, so the writes
already made stay. There is no handler, no saved state and no return (R241, R242). -/
def State.raise (s : State) (addr : Nat) (c : Cause) : State := s.setRun (.faulted ⟨addr, c⟩)

/-- The address of the instruction that is executing: `pc` has been incremented (10_state.md R40). -/
def State.instrAddr (s : State) : Nat := s.pc - 1

/-- One statement of an instruction at `addr`, made in state `s`: go on with its result, or raise its error. -/
def attempt {α : Type} (addr : Nat) (s : State) (r : Except Cause α) (k : α → State) : State :=
  match r with
  | .error c => s.raise addr c
  | .ok a => k a

/-- The kind of a run-time error (R230). -/
def Cause.kind : Cause → ErrorKind
  | .outOfRange _ _ => .outOfRange
  | .typeMismatch _ _ => .operandTypeMismatch
  | .invalidArgument _ => .invalidArgument

/-- The kind of an error after which no run starts (R230). A slot outside the memory is an index out of range. -/
def Fault.kind : Fault → ErrorKind
  | .configurationError _ _ => .configurationError
  | .argumentError _ => .argumentError
  | .imageOutOfRange _ => .outOfRange

/-- The code of an error kind (R230). -/
def ErrorKind.code : ErrorKind → Nat
  | .configurationError => 1
  | .argumentError => 2
  | .outOfRange => 3
  | .operandTypeMismatch => 4
  | .invalidArgument => 5
  | .ioFailure => 6

/-- The last column of R230: IOFailure is recovered by clearing the flag (R237), every other kind is terminal. -/
def ErrorKind.terminal : ErrorKind → Bool
  | .configurationError => true
  | .argumentError => true
  | .outOfRange => true
  | .operandTypeMismatch => true
  | .invalidArgument => true
  | .ioFailure => false

/-! The input port (45_io_system.md R214). -/

/-- The answer the host gives to the next request. -/
def State.nextAnswer (s : State) : Answer :=
  match s.script[s.inPos]? with
  | some a => a
  | none => Config.hostAnswer s.inPos

/-- One request has been answered. -/
def State.consumeAnswer (s : State) : State := { s with inPos := s.inPos + 1 }

/-! Fetch and increment (40_execute_loop.md R131, R132). -/

/-- The instruction in slot `pc`. -/
def fetch (s : State) : Except Cause Instr :=
  match memRead s.pc s with
  | .error c => .error c
  | .ok (.insn i) => .ok i
  | .ok (.int _) => .error (.typeMismatch .fetch .int)
  | .ok (.text _) => .error (.typeMismatch .fetch .text)
  | .ok .empty => .error (.typeMismatch .fetch .empty)

/-- `pc <- pc + 1`, before the instruction executes. -/
def State.advance (s : State) : State := s.setPc (s.pc + 1)

end Sys2Proof.Machine
end

