-- ==== Sys2Proof/Machine/Boot.lean ====
section
/-! DEFINITION. How a run begins: the configuration check and the load (70_reset_and_hazards.md R260). -/

namespace Sys2Proof.Machine

open Sys2Proof

/-- What the host places in a slot (00_scope.md R9). An instruction comes as a binary record (30_encoding.md R103) or
as an opcode with the arguments its constructor was given (R96). -/
inductive ImageItem where
  | int (n : Word)
  | text (t : Text)
  | record (ws : List Word)
  | built (op : Opcode) (args : List Arg)
  deriving DecidableEq, Repr

/-- The Value an item places, every instruction validated (R100, R106). -/
def ImageItem.value : ImageItem → Except ArgError Value
  | .int n => .ok (.int n)
  | .text t => .ok (.text t)
  | .record ws =>
    match decodeRecord ws with
    | .error e => .error e
    | .ok (i, []) => .ok (.insn i)
    | .ok (i, _ :: _) => .error (.trailingWords i.opcode)
  | .built op args =>
    match validate op args with
    | .error e => .error e
    | .ok i => .ok (.insn i)

/-- A memory image: items with the slots they go to, placed in the order listed. -/
abbrev Image := List (Nat × ImageItem)

/-- Step 3 of R260: the first ArgumentError aborts the load (60_exceptions.md R232). -/
def load : Image → State → Result
  | [], s => .next s
  | (a, item) :: rest, s =>
    match item.value with
    | .error e => .fault (.argumentError e)
    | .ok v =>
      match memWrite a v s with
      | .error _ => .fault (.imageOutOfRange a)
      | .ok s1 => load rest s1

/-- Steps 1 to 4 of R260 for the host's `MEM_SIZE`, `REG_COUNT` and `SP_INDEX`: the configuration check
(60_exceptions.md R231), the reset values, the load. The state it answers is the one the loop starts from. Every register
is then Empty, the stack register too (10_state.md R53). DESIGN CHOICE, log entry 19 (unsafe): 70_reset_and_hazards.md
R262 (2) would let the loader place an Integer in the stack register; here an image reaches memory slots only. -/
def boot (memSize regCount : Int) (spIndex : Nat) (parser : Parser) (script : List Answer) (image : Image) : Result :=
  if memSize < 1 ∨ (maxI32 : Int) < memSize then .fault (.configurationError .memSize memSize)
  else if regCount < (spIndex : Int) + 1 ∨ (maxI32 : Int) < regCount then
    .fault (.configurationError .regCount regCount)
  else
    load image (State.resetWith ⟨memSize.toNat, regCount.toNat, spIndex, parser⟩ script)

/-- `s` with the instruction of a table word placed in slot `pc` and the run going on, as if the load had placed it.
A word the load refuses, or a `pc` outside the memory, places nothing. -/
def placeTableWord (s : State) (nbits w : Nat) : State :=
  match decodeTableWord nbits w with
  | none => s
  | some i => if s.pc < s.cfg.memSize then (s.setSlot s.pc (.insn i)).setRun .running else s

end Sys2Proof.Machine
end

