-- ==== Sys2Proof/Machine/Flags.lean ====
section
/-! DEFINITION. The flag computation of TestEquals (41_arith.md R161). -/

namespace Sys2Proof.Machine

open Sys2Proof

/-- `valueEq(a, b)` with the draws numbered `n` (R161). -/
def valueEq (n : Nat) (a b : Value) : Bool :=
  match a with
  | .int m =>
    match b with
    | .int k => decide (m = k)
    | .text _ => false
    | .insn _ => false
    | .empty => false
  | .text t =>
    match b with
    | .text u => decide (t = u)
    | .int _ => false
    | .insn _ => false
    | .empty => false
  | .insn p =>
    match b with
    | .insn q => Config.eqInsn n p q
    | .int _ => false
    | .text _ => false
    | .empty => false
  | .empty =>
    match b with
    | .empty => Config.eqEmpty n
    | .int _ => false
    | .text _ => false
    | .insn _ => false

/-- How many draws `valueEq` makes: one for two Empty values or two instruction handles. -/
def valueEqDraws (a b : Value) : Nat :=
  match a with
  | .int _ => 0
  | .text _ => 0
  | .insn _ =>
    match b with
    | .insn _ => 1
    | .int _ => 0
    | .text _ => 0
    | .empty => 0
  | .empty =>
    match b with
    | .empty => 1
    | .int _ => 0
    | .text _ => 0
    | .insn _ => 0

end Sys2Proof.Machine
end

