-- ==== Sys2Proof/Machine/Operands.lean ====
section
/-! DEFINITION. The addressing modes (20_memory.md section 6). -/

namespace Sys2Proof.Machine

open Sys2Proof

/-- `ea(i, off, site)` (R81): the exact sum, not wrapped. -/
def effAddr (i : Nat) (off : Int) (site : Site) (s : State) : Except Cause Int :=
  match readInt i site s with
  | .error c => .error c
  | .ok b => .ok (b + off)

/-- resolveRead of a register or of an indirect operand (R82): any Value, no tag check. -/
def resolveReadLoc (d : Loc) (site : Site) (s : State) : Except Cause Value :=
  match d with
  | .reg i => readReg i s
  | .ind i off =>
    match effAddr i off site s with
    | .error c => .error c
    | .ok a => memRead a s

/-- resolveRead (R82). -/
def resolveRead (src : Src) (site : Site) (s : State) : Except Cause Value :=
  match src with
  | .loc d => resolveReadLoc d site s
  | .num n => .ok (.int n)

/-- resolveWrite (R83). -/
def resolveWrite (d : Loc) (v : Value) (site : Site) (s : State) : Except Cause State :=
  match d with
  | .reg i => writeReg i v s
  | .ind i off =>
    match effAddr i off site s with
    | .error c => .error c
    | .ok a => memWrite a v s

end Sys2Proof.Machine
end

