-- ==== Sys2Proof/Machine/Arith.lean ====
section
/-! DEFINITION. Arithmetic and comparison (41_arith.md). -/

namespace Sys2Proof.Machine

open Sys2Proof

/-- Add (R151). -/
def execAdd (i j k : Nat) (s : State) : Result :=
  .next <|
    attempt s.instrAddr s (readInt j (.arg .add 1) s) fun a =>
    attempt s.instrAddr s (readInt k (.arg .add 2) s) fun b =>
    attempt s.instrAddr s (writeReg i (.int (wrap32 (a + b))) s) fun s1 => s1

/-- Mul (R152). -/
def execMul (i j k : Nat) (s : State) : Result :=
  .next <|
    attempt s.instrAddr s (readInt j (.arg .mul 1) s) fun a =>
    attempt s.instrAddr s (readInt k (.arg .mul 2) s) fun b =>
    attempt s.instrAddr s (writeReg i (.int (wrap32 (a * b))) s) fun s1 => s1

/-- Decrement (R153). -/
def execDecrement (i : Nat) (s : State) : Result :=
  .next <|
    attempt s.instrAddr s (readInt i (.arg .decrement 0) s) fun a =>
    attempt s.instrAddr s (writeReg i (.int (wrap32 (a - 1))) s) fun s1 => s1

/-- TestEquals (R160): any two Values; `flag` is always written. -/
def execTestEquals (i j : Nat) (s : State) : Result :=
  .next <|
    attempt s.instrAddr s (readReg i s) fun a =>
    attempt s.instrAddr s (readReg j s) fun b =>
    (s.setFlag (valueEq s.draws a b)).addDraws (valueEqDraws a b)

end Sys2Proof.Machine
end

