-- ==== Sys2Proof/Machine/Control.lean ====
section
/-! DEFINITION. Control transfer (42_control.md). -/

namespace Sys2Proof.Machine

open Sys2Proof

/-- Jump (R171). -/
def execJump (t : Word) (s : State) : Result :=
  .next <| attempt s.instrAddr s (setPC t.toInt s) fun s1 => s1

/-- JumpIfTrue (R175): not taken, it has no effect. -/
def execJumpIfTrue (t : Word) (s : State) : Result :=
  .next <|
    match s.flag with
    | true => attempt s.instrAddr s (setPC t.toInt s) fun s1 => s1
    | false => s

/-- Call (R176): the return address is the incremented `pc`. The store and the decrement stay if the target is
negative. -/
def execCall (t : Word) (s : State) : Result :=
  .next <|
    attempt s.instrAddr s (readStackPtr .call s) fun sp =>
    attempt s.instrAddr s (memWrite sp (.int (wrap32 s.pc)) s) fun s1 =>
    attempt s.instrAddr s1 (writeStackPtr (sp - 1) s1) fun s2 =>
    attempt s.instrAddr s2 (setPC t.toInt s2) fun s3 => s3

/-- Ret (R177): the stack register is written last. -/
def execRet (s : State) : Result :=
  .next <|
    attempt s.instrAddr s (readStackPtr .ret s) fun sp =>
    attempt s.instrAddr s (memRead (sp + 1) s) fun v =>
    attempt s.instrAddr s (asInt v .retTarget) fun t =>
    attempt s.instrAddr s (setPC t s) fun s1 =>
    attempt s.instrAddr s1 (writeStackPtr (sp + 1) s1) fun s2 => s2

end Sys2Proof.Machine
end

