-- ==== Sys2Proof/Machine/TextOps.lean ====
section
/-! DEFINITION. Texts: what Echo writes for a Value, and how IInput reads an integer (45_io_system.md R210 to R213). -/

namespace Sys2Proof.Machine

open Sys2Proof

/-- The character of a decimal digit. -/
def digitChar (d : Nat) : Char := Char.ofNat (48 + d)

/-- The decimal digits of `n` put before `acc`, at most `fuel` of them. -/
def digitsBefore : Nat → Nat → Text → Text
  | 0, _, acc => acc
  | fuel + 1, n, acc =>
    if n < 10 then digitChar n :: acc else digitsBefore fuel (n / 10) (digitChar (n % 10) :: acc)

/-- The decimal digits of `n`, without leading zeros. Ten are enough for the magnitude of an `i32`. -/
def decimalNat (n : Nat) : Text := digitsBefore 10 n []

/-- The decimal numeral of an `i32` (R210). -/
def decimal (n : Word) : Text :=
  if n.toInt < 0 then '-' :: decimalNat n.toInt.natAbs else decimalNat n.toInt.natAbs

/-- `repr(v)` (R210, R212), a draw numbered `n` for Empty and for an instruction handle. -/
def reprText (n : Nat) (v : Value) : Text :=
  match v with
  | .int k => decimal k
  | .text t => t
  | .insn i => Config.echoRepr n (.insn i)
  | .empty => Config.echoRepr n .empty

/-- How many draws `reprText` makes. -/
def reprDraws : Value → Nat
  | .int _ => 0
  | .text _ => 0
  | .insn _ => 1
  | .empty => 1

/-- The value of an ASCII digit. -/
def digitValue (c : Char) : Option Nat :=
  if 48 ≤ c.toNat ∧ c.toNat ≤ 57 then some (c.toNat - 48) else none

/-- The number that ASCII digits denote, `acc` standing before them. -/
def parseDigits : Text → Nat → Option Nat
  | [], acc => some acc
  | c :: cs, acc =>
    match digitValue c with
    | none => none
    | some d => parseDigits cs (10 * acc + d)

/-- One or more ASCII digits. -/
def parseNat (t : Text) : Option Nat :=
  match t with
  | [] => none
  | c :: cs => parseDigits (c :: cs) 0

/-- An optional sign and one or more ASCII digits, nothing else. -/
def parseSigned (t : Text) : Option Int :=
  match t with
  | [] => none
  | c :: cs =>
    if c = '-' then (parseNat cs).map (fun n : Nat => -(n : Int))
    else if c = '+' then (parseNat cs).map (fun n : Nat => (n : Int))
    else (parseNat (c :: cs)).map (fun n : Nat => (n : Int))

/-- The recommended reading of `PARSE_INT` (R213). -/
def parseRecommended (t : Text) : Option Word :=
  match parseSigned t with
  | none => none
  | some n => if -2147483648 ≤ n ∧ n ≤ 2147483647 then some (wrap32 n) else none

/-- The run's `PARSE_INT` (R213). -/
def parseInt (p : Parser) (t : Text) : Option Word :=
  match p with
  | .recommended => parseRecommended t
  | .unstated => Config.unstatedParse t

end Sys2Proof.Machine
end

