-- ==== Sys2Proof/Machine/InOut.lean ====
section
/-! DEFINITION. Echo, IInput and Halt (45_io_system.md). -/

namespace Sys2Proof.Machine

open Sys2Proof

/-- Echo (R211). -/
def execEcho (d : Loc) (s : State) : Result :=
  .next <|
    attempt s.instrAddr s (resolveReadLoc d (.base .echo 0) s) fun v =>
    (s.emit (reprText s.draws v)).addDraws (reprDraws v)

/-- IInput (R215): the answer is consumed first; a read or parse failure only clears the flag (60_exceptions.md R237);
the address is checked only after a successful parse. -/
def execIinput (a : Word) (s : State) : Result :=
  .next <|
    match s.nextAnswer with
    | .fail => s.consumeAnswer.setFlag false
    | .line t =>
      match parseInt s.cfg.parser t with
      | none => s.consumeAnswer.setFlag false
      | some n =>
        attempt s.instrAddr s.consumeAnswer (memWrite a.toInt (.int n) s.consumeAnswer) fun s1 => s1.setFlag true

/-- Halt (R216) and the halt check that follows it (40_execute_loop.md R134): no other instruction answers
`halt = true`. -/
def execHalt (s : State) : Result := .next (s.setRun .halted)

end Sys2Proof.Machine
end

