-- ==== Sys2Proof/Machine/Move.lean ====
section
/-! DEFINITION. Data movement (44_move.md). -/

namespace Sys2Proof.Machine

open Sys2Proof

/-- Move (R200): the source is read before the destination's address is computed. -/
def execMove (d : Loc) (src : Src) (s : State) : Result :=
  .next <|
    attempt s.instrAddr s (resolveRead src (.base .move 1) s) fun v =>
    attempt s.instrAddr s (resolveWrite d v (.base .move 0) s) fun s1 => s1

end Sys2Proof.Machine
end

