-- ==== Sys2Proof/Machine/Stack.lean ====
section
/-! DEFINITION. Push and Pop (43_stack.md). -/

namespace Sys2Proof.Machine

open Sys2Proof

/-- Push (R190): the pushed Value is read before the stack register is written. -/
def execPush (i : Nat) (s : State) : Result :=
  .next <|
    attempt s.instrAddr s (readStackPtr .push s) fun sp =>
    attempt s.instrAddr s (readReg i s) fun v =>
    attempt s.instrAddr s (memWrite sp v s) fun s1 =>
    attempt s.instrAddr s1 (writeStackPtr (sp - 1) s1) fun s2 => s2

/-- Pop (R192): the stack register is written last, so a Value popped into it is lost. -/
def execPop (i : Nat) (s : State) : Result :=
  .next <|
    attempt s.instrAddr s (readStackPtr .pop s) fun sp =>
    attempt s.instrAddr s (memRead (sp + 1) s) fun v =>
    attempt s.instrAddr s (writeReg i v s) fun s1 =>
    attempt s.instrAddr s1 (writeStackPtr (sp + 1) s1) fun s2 => s2

end Sys2Proof.Machine
end

