-- ==== Sys2Proof/Machine/Dispatch.lean ====
section
/-! DEFINITION. Dispatch (40_execute_loop.md R133): one arm for each instruction. `exec` runs with `pc` already
incremented (R132). -/

namespace Sys2Proof.Machine

open Sys2Proof

def exec (i : Instr) (s : State) : Host.Outcome State Fault Refusal :=
  match i with
  | .add d j k => Sys2Proof.Machine.execAdd d j k s
  | .mul d j k => Sys2Proof.Machine.execMul d j k s
  | .decrement r => Sys2Proof.Machine.execDecrement r s
  | .testEquals j k => Sys2Proof.Machine.execTestEquals j k s
  | .jump t => Sys2Proof.Machine.execJump t s
  | .jumpIfTrue t => Sys2Proof.Machine.execJumpIfTrue t s
  | .call t => Sys2Proof.Machine.execCall t s
  | .ret => Sys2Proof.Machine.execRet s
  | .push r => Sys2Proof.Machine.execPush r s
  | .pop r => Sys2Proof.Machine.execPop r s
  | .move d src => Sys2Proof.Machine.execMove d src s
  | .echo d => Sys2Proof.Machine.execEcho d s
  | .iinput a => Sys2Proof.Machine.execIinput a s
  | .halt => Sys2Proof.Machine.execHalt s

end Sys2Proof.Machine
end

