-- ==== Sys2Proof/Machine/Step.lean ====
section
/-! DEFINITION. The step (40_execute_loop.md R130 to R136). -/

namespace Sys2Proof.Machine

open Sys2Proof

/-- One fetch-execute step (R136). A fetch error is recorded with `pc` not incremented (R131). A run that has ended
takes no step and nothing changes its state again (R130): the answer is the state itself. DESIGN CHOICE, log entry 7. -/
def step (s : State) : Host.Outcome State Fault Refusal :=
  match s.run with
  | .running =>
    match fetch s with
    | .error c => .next (s.raise s.pc c)
    | .ok i => exec i s.advance
  | .halted => .next s
  | .faulted _ => .next s

/-- `s` with the instruction of a table word where the next step fetches it. It stands for the host's load
(00_scope.md R9). Log entry 8. -/
def State.withFetchWord (s : State) (nbits w : Nat) : State := placeTableWord s nbits w

end Sys2Proof.Machine
end

