-- ==== Sys2Proof/Safety.lean ====
section
/-! DEFINITION. The terms claims are stated in: what a legal state is, what a run can end in, and what each instruction
reads, writes and raises. -/

namespace Sys2Proof

/-- An instruction handle holds a validated instruction (30_encoding.md R101); any other Value is legal. -/
def Value.legal : Value → Bool
  | .int _ => true
  | .text _ => true
  | .insn i => i.wf
  | .empty => true

/-- Whether an instruction sets `pc` (10_state.md R41). -/
def Instr.transfersControl : Instr → Bool
  | .jump _ => true
  | .jumpIfTrue _ => true
  | .call _ => true
  | .ret => true
  | .add _ _ _ => false
  | .mul _ _ _ => false
  | .decrement _ => false
  | .testEquals _ _ => false
  | .push _ => false
  | .pop _ => false
  | .move _ _ => false
  | .echo _ => false
  | .iinput _ => false
  | .halt => false

/-- Whether an instruction writes `flag` when it completes (10_state.md R45). -/
def Instr.setsFlag : Instr → Bool
  | .testEquals _ _ => true
  | .iinput _ => true
  | .add _ _ _ => false
  | .mul _ _ _ => false
  | .decrement _ => false
  | .jump _ => false
  | .jumpIfTrue _ => false
  | .call _ => false
  | .ret => false
  | .push _ => false
  | .pop _ => false
  | .move _ _ => false
  | .echo _ => false
  | .halt => false

/-! Operand signatures, as the table of 30_encoding.md R98 lists them. -/

/-- A cell of the table. -/
inductive SignatureCell where
  /-- `descriptor, I = 0`. -/
  | direct
  /-- `descriptor, I = 0 or 1`. -/
  | anyDescriptor
  /-- `number`. -/
  | number
  /-- `descriptor (I = 0 or 1) or number`. -/
  | descriptorOrNumber
  deriving DecidableEq, Repr

/-- A row of the table. -/
def Opcode.signature : Opcode → List SignatureCell
  | .add => [.direct, .direct, .direct]
  | .mul => [.direct, .direct, .direct]
  | .decrement => [.direct]
  | .testEquals => [.direct, .direct]
  | .jump => [.number]
  | .jumpIfTrue => [.number]
  | .call => [.number]
  | .ret => []
  | .push => [.direct]
  | .pop => [.direct]
  | .move => [.anyDescriptor, .descriptorOrNumber]
  | .echo => [.anyDescriptor]
  | .iinput => [.number]
  | .halt => []

/-- What a cell expected of an argument that does not fit it (R100). -/
def SignatureCell.complaint : SignatureCell → Arg → Option Expected
  | .direct, .descriptor d => if d.getLsbD 24 then some .nonIndirectDescriptor else none
  | .direct, .number _ => some .descriptor
  | .direct, .text _ => some .descriptor
  | .anyDescriptor, .descriptor _ => none
  | .anyDescriptor, .number _ => some .descriptor
  | .anyDescriptor, .text _ => some .descriptor
  | .number, .descriptor _ => some .number
  | .number, .number _ => none
  | .number, .text _ => some .number
  | .descriptorOrNumber, .descriptor _ => none
  | .descriptorOrNumber, .number _ => none
  | .descriptorOrNumber, .text _ => some .descriptorOrNumber

/-- `form(arg)` (R97). -/
def Arg.form : Arg → Option Src
  | .descriptor d => some (.loc (if descIndirect d then .ind (descIndex d) (descOffset d) else .reg (descIndex d)))
  | .number n => some (.num n)
  | .text _ => none

/-- The operands of an instruction, in the order its arguments are written (R98, R101). -/
def Instr.operands : Instr → List Src
  | .add i j k => [.loc (.reg i), .loc (.reg j), .loc (.reg k)]
  | .mul i j k => [.loc (.reg i), .loc (.reg j), .loc (.reg k)]
  | .decrement i => [.loc (.reg i)]
  | .testEquals i j => [.loc (.reg i), .loc (.reg j)]
  | .jump t => [.num t]
  | .jumpIfTrue t => [.num t]
  | .call t => [.num t]
  | .ret => []
  | .push i => [.loc (.reg i)]
  | .pop i => [.loc (.reg i)]
  | .move d src => [.loc d, src]
  | .echo d => [.loc d]
  | .iinput a => [.num a]
  | .halt => []

end Sys2Proof

namespace Sys2Proof.Machine

open Sys2Proof

/-! Runs (40_execute_loop.md R138, R139). -/

/-- The run has ended. -/
abbrev State.ended (s : State) : Prop := s.run ≠ .running

/-- The driving call's success indicator (R138). -/
abbrev State.success (s : State) : Prop := s.run = .halted

/-- A safe state: no run-time error has ended the run. -/
abbrev State.safe (s : State) : Prop := ∀ f, s.run ≠ .faulted f

/-- What the user may have seen of the output once the run has ended: after a fault any leading part of it
(93_implementation_defined.md I11). DESIGN CHOICE, log entry 15 (unsafe) for the other two cases, which the spec leaves
open: after HALTED all of it, and in a run that has not ended, of which 40_execute_loop.md R139 says nothing, the
predicate holds of no text. -/
def State.mayHaveSeen (s : State) (seen : Text) : Prop :=
  match s.run with
  | .faulted _ => seen <+: s.outText
  | .halted => seen = s.outText
  | .running => False

/-! Legal states. -/

/-- Slots numbered below `n`, in canonical form, each holding a legal Value. -/
abbrev Slots.legal (n : Nat) (m : Slots) : Prop :=
  Slots.wf m ∧ ∀ p ∈ m, p.1 < n ∧ p.2.legal = true

/-- A fault record names the instruction `pc` points at (a fetch error, R131) or the one before it (R233). -/
def RunState.legal (pc : Nat) : RunState → Bool
  | .running => true
  | .halted => true
  | .faulted f => f.addr == pc || f.addr + 1 == pc

/-- What every state of a run meets: a legal configuration (00_scope.md R13, R15), memory and registers that exist and
hold legal Values, `pc` in `0 .. 2^31-1` (10_state.md R39), and a fault record that names the faulting instruction. -/
abbrev State.Inv (s : State) : Prop :=
  s.cfg.valid ∧ Slots.legal s.cfg.memSize s.mem ∧ Slots.legal s.cfg.regCount s.x ∧ s.pc ≤ maxI32 ∧
    RunState.legal s.pc s.run = true

/-- Some slot or register holds `v`. -/
def State.holds (s : State) (v : Value) : Prop :=
  (∃ a, Slots.get s.mem a = v) ∨ ∃ i, Slots.get s.x i = v

/-! Operands, as the rules describe them. -/

/-- Operand `d` reads `v` (20_memory.md R82). -/
def LocHolds (s : State) (d : Loc) (v : Value) : Prop :=
  match d with
  | .reg i => readReg i s = .ok v
  | .ind i off => ∃ b : Word, readReg i s = .ok (.int b) ∧ memRead (b.toInt + off) s = .ok v

/-- Operand `src` reads `v` (20_memory.md R82). -/
def SrcHolds (s : State) (src : Src) (v : Value) : Prop :=
  match src with
  | .loc d => LocHolds s d v
  | .num n => v = .int n

/-- Reading operand `d` raises `c`: its register does not exist, its base register holds no Integer, or its slot does
not exist (44_move.md R200, 45_io_system.md R211). -/
def LocRaises (s : State) (d : Loc) (site : Site) (c : Cause) : Prop :=
  match d with
  | .reg i => s.cfg.regCount ≤ i ∧ c = .outOfRange .reg i
  | .ind i off =>
    (s.cfg.regCount ≤ i ∧ c = .outOfRange .reg i) ∨
      (∃ v, readReg i s = .ok v ∧ v.tag ≠ .int ∧ c = .typeMismatch site (v.tag)) ∨
      ∃ b : Word, readReg i s = .ok (.int b) ∧ ¬(0 ≤ b.toInt + off ∧ b.toInt + off < s.cfg.memSize) ∧
        c = .outOfRange .mem (b.toInt + off)

/-- `x[i]` is required to be an Integer and is not, or does not exist. -/
def IntRaises (s : State) (i : Nat) (site : Site) (c : Cause) : Prop :=
  (s.cfg.regCount ≤ i ∧ c = .outOfRange .reg i) ∨
    ∃ v, readReg i s = .ok v ∧ v.tag ≠ .int ∧ c = .typeMismatch site (v.tag)

/-! Footprints. -/

/-- The registers an instruction may write (10_state.md R37, 20_memory.md R85): its destination, and the stack register
for Push, Pop, Call and Ret. -/
def destRegs (s : State) : Instr → List Nat
  | .add i _ _ => [i]
  | .mul i _ _ => [i]
  | .decrement i => [i]
  | .testEquals _ _ => []
  | .jump _ => []
  | .jumpIfTrue _ => []
  | .call _ => [s.cfg.spIndex]
  | .ret => [s.cfg.spIndex]
  | .push _ => [s.cfg.spIndex]
  | .pop i => [i, s.cfg.spIndex]
  | .move (.reg i) _ => [i]
  | .move (.ind _ _) _ => []
  | .echo _ => []
  | .iinput _ => []
  | .halt => []

/-- The slot an instruction stores to, computed as its meaning computes it; none for a form that stores nothing
(20_memory.md R61). -/
def storeAddr (s : State) : Instr → Option Int
  | .add _ _ _ => none
  | .mul _ _ _ => none
  | .decrement _ => none
  | .testEquals _ _ => none
  | .jump _ => none
  | .jumpIfTrue _ => none
  | .call _ => (readStackPtr .call s).toOption
  | .ret => none
  | .push _ => (readStackPtr .push s).toOption
  | .pop _ => none
  | .move (.reg _) _ => none
  | .move (.ind i off) _ => (effAddr i off (.base .move 0) s).toOption
  | .echo _ => none
  | .iinput a => some a.toInt
  | .halt => none

/-- The row of an instruction in the table of 60_exceptions.md R238: the errors it can raise in state `s`. -/
def mayRaise (s : State) (i : Instr) (c : Cause) : Prop :=
  match i with
  | .add d j k =>
    IntRaises s j (.arg .add 1) c ∨ IntRaises s k (.arg .add 2) c ∨ (s.cfg.regCount ≤ d ∧ c = .outOfRange .reg d)
  | .mul d j k =>
    IntRaises s j (.arg .mul 1) c ∨ IntRaises s k (.arg .mul 2) c ∨ (s.cfg.regCount ≤ d ∧ c = .outOfRange .reg d)
  | .decrement d => IntRaises s d (.arg .decrement 0) c
  | .testEquals j k => (s.cfg.regCount ≤ j ∧ c = .outOfRange .reg j) ∨ (s.cfg.regCount ≤ k ∧ c = .outOfRange .reg k)
  | .jump t => t.toInt < 0 ∧ c = .invalidArgument t.toInt
  | .jumpIfTrue t => s.flag = true ∧ t.toInt < 0 ∧ c = .invalidArgument t.toInt
  | .call t =>
    IntRaises s s.cfg.spIndex (.sp .call) c ∨
      (∃ sp : Word, readReg s.cfg.spIndex s = .ok (.int sp) ∧ ¬(0 ≤ sp.toInt ∧ sp.toInt < s.cfg.memSize) ∧
        c = .outOfRange .mem sp.toInt) ∨
      (t.toInt < 0 ∧ c = .invalidArgument t.toInt)
  | .ret =>
    IntRaises s s.cfg.spIndex (.sp .ret) c ∨
      ∃ sp : Word, readReg s.cfg.spIndex s = .ok (.int sp) ∧
        ((¬(0 ≤ sp.toInt + 1 ∧ sp.toInt + 1 < s.cfg.memSize) ∧ c = .outOfRange .mem (sp.toInt + 1)) ∨
          (∃ v, memRead (sp.toInt + 1) s = .ok v ∧ v.tag ≠ .int ∧ c = .typeMismatch .retTarget (v.tag)) ∨
          ∃ t : Word, memRead (sp.toInt + 1) s = .ok (.int t) ∧ t.toInt < 0 ∧ c = .invalidArgument t.toInt)
  | .push d =>
    IntRaises s s.cfg.spIndex (.sp .push) c ∨ (s.cfg.regCount ≤ d ∧ c = .outOfRange .reg d) ∨
      ∃ sp : Word, readReg s.cfg.spIndex s = .ok (.int sp) ∧ ¬(0 ≤ sp.toInt ∧ sp.toInt < s.cfg.memSize) ∧
        c = .outOfRange .mem sp.toInt
  | .pop d =>
    IntRaises s s.cfg.spIndex (.sp .pop) c ∨ (s.cfg.regCount ≤ d ∧ c = .outOfRange .reg d) ∨
      ∃ sp : Word, readReg s.cfg.spIndex s = .ok (.int sp) ∧ ¬(0 ≤ sp.toInt + 1 ∧ sp.toInt + 1 < s.cfg.memSize) ∧
        c = .outOfRange .mem (sp.toInt + 1)
  | .move d src =>
    (∃ l, src = .loc l ∧ LocRaises s l (.base .move 1) c) ∨ LocRaises s d (.base .move 0) c
  | .echo d => LocRaises s d (.base .echo 0) c
  | .iinput a => ¬(0 ≤ a.toInt ∧ a.toInt < s.cfg.memSize) ∧ c = .outOfRange .mem a.toInt
  | .halt => False

/-! Decimal numerals. -/

/-- The number that a list of digit characters denotes. -/
def digitsValue (ds : Text) : Nat := ds.foldl (fun n c => 10 * n + (c.toNat - 48)) 0

/-- One or more ASCII digits. -/
abbrev IsDigits (ds : Text) : Prop := ds ≠ [] ∧ ∀ c ∈ ds, 48 ≤ c.toNat ∧ c.toNat ≤ 57

/-- The decimal numeral of `n` (45_io_system.md R210): `-` for a negative number, then digits with no leading zero
(`0` for zero). -/
def IsNumeral (n : Int) (t : Text) : Prop :=
  ∃ ds, IsDigits ds ∧ (ds.head? = some '0' → ds = ['0']) ∧ (digitsValue ds : Int) = n.natAbs ∧
    t = if n < 0 then '-' :: ds else ds

end Sys2Proof.Machine
end

