-- ==== Sys2Proof/Certificates/Slice0/Obligations.lean ====
section
/-! DEFINITION. The statements for the provers. `exec i s` runs with `pc` already incremented (40_execute_loop.md R132), so
the instruction at address `p` executes with `s.pc = p + 1` (10_state.md R40). -/

open Sys2Proof Sys2Proof.Machine

/-! Descriptors, validation and records (30_encoding.md). -/

/-- R95: a descriptor written from a register index, an indirect bit and an offset reads back as the three. -/
def Obligations.DescriptorFieldsRoundTrip : Prop :=
  ∀ (i : Nat) (ind : Bool) (off : Int), i ≤ 255 → -32768 ≤ off → off ≤ 32767 →
    descIndex (descWord i ind off) = i ∧ descIndirect (descWord i ind off) = ind ∧
      descOffset (descWord i ind off) = off

/-- R91, R92, R93: the fields of every 32-bit word: the index is the low byte, the indirect flag is bit 24, the offset is
what the source's procedure computes from bits 23 to 8 and lies in `-32768 .. 32767`. -/
def Obligations.DescriptorFieldsOfEveryWord : Prop :=
  ∀ d : Word,
    descIndex d = d.toNat % 256 ∧ descIndex d ≤ 255 ∧ (descIndirect d = true ↔ d.toNat / 2 ^ 24 % 2 = 1) ∧
      descOffset d =
        (if ((d >>> 8) &&& 0xFFFF#32).getLsbD 15 then
          -(((~~~((d >>> 8) &&& 0xFFFF#32) + 1#32) &&& 0xFFFF#32).toNat : Int)
        else (((d >>> 8) &&& 0xFFFF#32).toNat : Int)) ∧
      -32768 ≤ descOffset d ∧ descOffset d ≤ 32767

/-- R97: a direct descriptor's form is set by its low byte, an indirect one's by its low 24 bits: `OFF` of a direct
descriptor and bits 31 to 25 of both are discarded. -/
def Obligations.DescriptorFormDiscardsIgnoredBits : Prop :=
  ∀ d e : Word,
    (descIndirect d = false → descIndirect e = false → d.toNat % 2 ^ 8 = e.toNat % 2 ^ 8 → descForm d = descForm e) ∧
      (descIndirect d = true → descIndirect e = true → d.toNat % 2 ^ 24 = e.toNat % 2 ^ 24 → descForm d = descForm e)

/-- Decoding the record of a well-formed instruction, whatever words follow it, gives the instruction back and leaves
those words (R101, R103 to R106). -/
def Obligations.DecodeOfEncodeIsTheInstruction : Prop :=
  ∀ (i : Instr) (rest : List Word), i.wf = true → decodeRecord (encode i ++ rest) = .ok (i, rest)

/-- R106: a record that decodes has `1 + arity(OP)` words, and what it decodes to is a validated instruction (R101) with
the header's opcode. -/
def Obligations.DecodedRecordLengthAndForm : Prop :=
  ∀ (h : Word) (ws rest : List Word) (i : Instr), decodeRecord (h :: ws) = .ok (i, rest) →
    i.wf = true ∧ Opcode.ofNumber (h.toNat % 16) = some i.opcode ∧ i.opcode.arity ≤ ws.length ∧
      rest = ws.drop i.opcode.arity

/-- R107: a header with a nonzero bit among 31 to 5, with opcode number 14 or 15, or with `K = 1` outside Move, never
decodes, whatever follows it. -/
def Obligations.ReservedHeadersNeverDecode : Prop :=
  ∀ (h : Word) (ws : List Word),
    (h.toNat / 2 ^ 5 ≠ 0 ∨ h.toNat % 16 = 14 ∨ h.toNat % 16 = 15 ∨ (h.toNat / 2 ^ 4 % 2 = 1 ∧ h.toNat % 16 ≠ 10)) →
    ∃ e, decodeRecord (h :: ws) = .error e

/-- R104, R102: what every operand word means in every legal record. A direct descriptor (`I = 0`) stands for the register
of its low byte; nothing is checked of a number, of an offset or of a register index. -/
def Obligations.RecordsDecodeForEveryOperandWord : Prop :=
  ∀ (a b c : Word) (rest : List Word),
    (descIndirect a = false →
      decodeRecord (2#32 :: a :: rest) = .ok (.decrement (a.toNat % 256), rest) ∧
      decodeRecord (8#32 :: a :: rest) = .ok (.push (a.toNat % 256), rest) ∧
      decodeRecord (9#32 :: a :: rest) = .ok (.pop (a.toNat % 256), rest) ∧
      (descIndirect b = false →
        decodeRecord (3#32 :: a :: b :: rest) = .ok (.testEquals (a.toNat % 256) (b.toNat % 256), rest) ∧
        (descIndirect c = false →
          decodeRecord (0#32 :: a :: b :: c :: rest) =
            .ok (.add (a.toNat % 256) (b.toNat % 256) (c.toNat % 256), rest) ∧
          decodeRecord (1#32 :: a :: b :: c :: rest) =
            .ok (.mul (a.toNat % 256) (b.toNat % 256) (c.toNat % 256), rest)))) ∧
    decodeRecord (4#32 :: a :: rest) = .ok (.jump a, rest) ∧
    decodeRecord (5#32 :: a :: rest) = .ok (.jumpIfTrue a, rest) ∧
    decodeRecord (6#32 :: a :: rest) = .ok (.call a, rest) ∧
    decodeRecord (7#32 :: rest) = .ok (.ret, rest) ∧
    decodeRecord (10#32 :: a :: b :: rest) = .ok (.move (descForm a) (.loc (descForm b)), rest) ∧
    decodeRecord (26#32 :: a :: b :: rest) = .ok (.move (descForm a) (.num b), rest) ∧
    decodeRecord (11#32 :: a :: rest) = .ok (.echo (descForm a), rest) ∧
    decodeRecord (12#32 :: a :: rest) = .ok (.iinput a, rest) ∧
    decodeRecord (13#32 :: rest) = .ok (.halt, rest)

/-- Records written out in 95_test_vectors.md decode to the instructions they stand for. -/
def Obligations.SpecRecordsDecode : Prop :=
  decodeRecord [0x00000000#32, 0x00000003#32, 0x00000003#32, 0x00000004#32] = .ok (.add 3 3 4, []) ∧
    decodeRecord [0x00000005#32, 0x00000007#32] = .ok (.jumpIfTrue 7#32, []) ∧
    decodeRecord [0x00000008#32, 0x00000001#32] = .ok (.push 1, []) ∧
    decodeRecord [0x0000000A#32, 0x01000500#32, 0x01000107#32] = .ok (.move (.ind 0 5) (.loc (.ind 7 1)), []) ∧
    decodeRecord [0x0000001A#32, 0x00000001#32, 0x00000005#32] = .ok (.move (.reg 1) (.num 5#32), []) ∧
    decodeRecord [0x0000000B#32, 0x01000B00#32] = .ok (.echo (.ind 0 11), []) ∧
    decodeRecord [0x0000000D#32] = .ok (.halt, [])

/-- R97, R98, R100: validation checks the arity first and then the arguments from the left against the table of R98; the
first argument that does not fit is reported with its index and what was expected; arguments that all fit give the
instruction with their operand forms. A text argument fits nowhere (R99). -/
def Obligations.ValidationFollowsTheSignatureTable : Prop :=
  ∀ (op : Opcode) (args : List Arg),
    op.signature.length = op.arity ∧
    (args.length ≠ op.arity → validate op args = .error (.arity op op.arity)) ∧
    (args.length = op.arity →
      (∀ (k : Nat) (cell : SignatureCell) (a : Arg) (e : Expected),
        op.signature[k]? = some cell → args[k]? = some a → cell.complaint a = some e →
        (∀ (j : Nat) (cell' : SignatureCell) (a' : Arg), j < k → op.signature[j]? = some cell' → args[j]? = some a' →
          cell'.complaint a' = none) →
        validate op args = .error (.argument op k e)) ∧
      ((∀ (k : Nat) (cell : SignatureCell) (a : Arg), op.signature[k]? = some cell → args[k]? = some a →
          cell.complaint a = none) →
        ∃ i, validate op args = .ok i ∧ i.opcode = op ∧ i.operands.map some = args.map Arg.form)) ∧
    ∀ (cell : SignatureCell) (t : Text), cell.complaint (.text t) ≠ none

/-! Slots, registers and memory. -/

/-- R21, R22, R74: a read returns the Value of the most recent write of its register or slot; a write leaves every other
register and every other slot as it was. -/
def Obligations.ReadsReturnTheLatestWrite : Prop :=
  (∀ (i : Nat) (v : Value) (s t : State), writeReg i v s = .ok t →
    readReg i t = .ok v ∧ (∀ j, j ≠ i → readReg j t = readReg j s) ∧ ∀ a, memRead a t = memRead a s) ∧
  ∀ (a : Int) (v : Value) (s t : State), memWrite a v s = .ok t →
    memRead a t = .ok v ∧ (∀ b, b ≠ a → memRead b t = memRead b s) ∧ ∀ j, readReg j t = readReg j s

/-- R21, R22, R64: an access outside its bounds raises OutOfRange with the exact index, a read and a write alike; an
access within them raises nothing. -/
def Obligations.BoundsAreCheckedOnEveryAccess : Prop :=
  ∀ (s : State) (i : Nat) (a : Int) (v : Value),
    (s.cfg.regCount ≤ i →
      readReg i s = .error (.outOfRange .reg i) ∧ writeReg i v s = .error (.outOfRange .reg i)) ∧
    (i < s.cfg.regCount → (∃ w, readReg i s = .ok w) ∧ ∃ t, writeReg i v s = .ok t) ∧
    (a < 0 ∨ (s.cfg.memSize : Int) ≤ a →
      memRead a s = .error (.outOfRange .mem a) ∧ memWrite a v s = .error (.outOfRange .mem a)) ∧
    (0 ≤ a → a < s.cfg.memSize → (∃ w, memRead a s = .ok w) ∧ ∃ t, memWrite a v s = .ok t)

/-- Canonical slots that read alike are equal: equal memories are equal data (log entry 10). -/
def Obligations.CanonicalSlotsAreSetByTheirReads : Prop :=
  ∀ m n : Slots, Slots.wf m → Slots.wf n → (∀ a, Slots.get m a = Slots.get n a) → m = n

/-! The loop (40_execute_loop.md). -/

/-- R132, R133: in a running state whose slot `pc` holds the handle of `i`, the step is `exec i` with `pc` incremented and
nothing else changed. -/
def Obligations.StepExecutesTheFetchedInstruction : Prop :=
  ∀ (s : State) (i : Instr), s.run = .running → memRead s.pc s = .ok (.insn i) →
    step s = exec i { s with pc := s.pc + 1 }

/-- R131: a fetch outside the memory, or of a slot that holds no instruction handle, ends the run; `pc` is not
incremented and nothing else changes. -/
def Obligations.FetchErrorsEndTheRun : Prop :=
  ∀ s : State, s.run = .running →
    (s.cfg.memSize ≤ s.pc → step s = .next { s with run := .faulted ⟨s.pc, .outOfRange .mem s.pc⟩ }) ∧
    ∀ v, memRead s.pc s = .ok v → v.tag ≠ .insn →
      step s = .next { s with run := .faulted ⟨s.pc, .typeMismatch .fetch v.tag⟩ }

/-- R130: once a run has ended nothing changes any state again, over any number of steps. That the model answers such a
step with the state itself is its own choice (log entry 7). -/
def Obligations.EndedRunsNeverChange : Prop :=
  ∀ (s : State) (k : Nat), s.run ≠ .running → Host.Core.run Sys2Proof.core k s = .next s

/-- Every number of steps from every state answers a state: no instruction is refused and no run-time error stops the
model (a run-time error is the state FAULTED of 10_state.md R49). -/
def Obligations.EveryRunAnswersAState : Prop :=
  ∀ (k : Nat) (s : State), ∃ t, Host.Core.run Sys2Proof.core k s = .next t

/-- R133, R134: of all steps of a running machine exactly those that execute Halt end in HALTED. -/
def Obligations.OnlyHaltReachesHalted : Prop :=
  ∀ s t : State, s.run = .running → step s = .next t → (t.run = .halted ↔ memRead s.pc s = .ok (.insn .halt))

/-- A word that the decoder accepts, placed where the next step fetches, is what that step executes (log entry 8). -/
def Obligations.PlacedTableWordRunsNext : Prop :=
  ∀ (s : State) (nbits w : Nat) (i : Instr), s.pc < s.cfg.memSize → decodeTableWord nbits w = some i →
    ∃ t, s.withFetchWord nbits w = t ∧ t.pc = s.pc ∧ memRead s.pc t = .ok (.insn i) ∧
      (∀ a : Int, a ≠ s.pc → memRead a t = memRead a s) ∧ step t = exec i { t with pc := s.pc + 1 }

/-- R77, R78: an instruction handle that Move stores in the next slot is what the next step executes; any other Value
stored there makes the next fetch raise OperandTypeMismatch. -/
def Obligations.StoresAreSeenByTheNextFetch : Prop :=
  ∀ (s : State) (b r : Nat) (off : Int) (w : Word) (v : Value), s.run = .running →
    memRead s.pc s = .ok (.insn (.move (.ind b off) (.loc (.reg r)))) → readReg b s = .ok (.int w) →
    w.toInt + off = s.pc + 1 → s.pc + 1 < s.cfg.memSize → readReg r s = .ok v →
    ∃ t, step s = .next t ∧ t.pc = s.pc + 1 ∧
      (∀ i, v = .insn i → step t = exec i { t with pc := s.pc + 2 }) ∧
      (v.tag ≠ .insn → step t = .next { t with run := .faulted ⟨s.pc + 1, .typeMismatch .fetch v.tag⟩ })

/-! Reset and boot (70_reset_and_hazards.md). -/

/-- R53: what reset leaves, under every configuration. -/
def Obligations.ResetValues : Prop :=
  ∀ (c : Config) (script : List Answer),
    (State.resetWith c script).pc = 0 ∧ (State.resetWith c script).flag = false ∧
      (State.resetWith c script).run = .running ∧ (State.resetWith c script).out = [] ∧
      (∀ i, i < c.regCount → readReg i (State.resetWith c script) = .ok .empty) ∧
      ∀ a : Nat, a < c.memSize → memRead a (State.resetWith c script) = .ok .empty

/-- Reset meets the invariant under every legal configuration, the one of `State.reset` among them (log entry 1). -/
def Obligations.ResetMeetsTheInvariant : Prop :=
  (∀ (c : Config) (script : List Answer), c.valid → (State.resetWith c script).Inv) ∧ State.reset.Inv

/-- Every step keeps the invariant: the configuration legal and unchanged, `pc` in `0 .. 2^31-1`, memory and registers
canonical and within their sizes, only validated instructions as handles, a fault record that names the faulting
instruction. -/
def Obligations.StepKeepsTheInvariant : Prop :=
  ∀ s t : State, s.Inv → step s = .next t → t.Inv ∧ t.cfg = s.cfg

/-- R231: a size or a register count outside its range raises ConfigurationError with the parameter and its value, before
anything else; with both outside it is one of the two; with none the load goes on. -/
def Obligations.BootChecksTheConfiguration : Prop :=
  ∀ (m r : Int) (sp : Nat) (p : Parser) (script : List Answer) (image : Image),
    ((m < 1 ∨ 2147483647 < m) → sp + 1 ≤ r → r ≤ 2147483647 →
      boot m r sp p script image = .fault (.configurationError .memSize m)) ∧
    (1 ≤ m → m ≤ 2147483647 → (r < sp + 1 ∨ 2147483647 < r) →
      boot m r sp p script image = .fault (.configurationError .regCount r)) ∧
    ((m < 1 ∨ 2147483647 < m) → (r < sp + 1 ∨ 2147483647 < r) →
      boot m r sp p script image = .fault (.configurationError .memSize m) ∨
        boot m r sp p script image = .fault (.configurationError .regCount r)) ∧
    (1 ≤ m → m ≤ 2147483647 → sp + 1 ≤ r → r ≤ 2147483647 →
      ∃ s, boot m r sp p script [] = .next s ∧ (s.cfg.memSize : Int) = m ∧ (s.cfg.regCount : Int) = r ∧
        s.cfg.spIndex = sp)

/-- A boot that succeeds, from whatever image, ends in a state that meets the invariant: every instruction handle the load
has placed is a validated instruction, in a slot that exists. -/
def Obligations.BootedStatesMeetTheInvariant : Prop :=
  ∀ (m r : Int) (sp : Nat) (p : Parser) (script : List Answer) (image : Image) (s : State),
    boot m r sp p script image = .next s → s.Inv

/-- R53: what a boot that succeeds leaves, from whatever image: `pc` 0, the flag clear, RUNNING, nothing written to the
output, every register Empty, every slot the Value the loader placed there, and every slot left unplaced Empty. -/
def Obligations.BootLeavesTheResetState : Prop :=
  ∀ (m r : Int) (sp : Nat) (p : Parser) (script : List Answer) (image : Image) (s : State),
    boot m r sp p script image = .next s →
    s.pc = 0 ∧ s.run = .running ∧ s.flag = false ∧ s.out = [] ∧
      (∀ i, i < s.cfg.regCount → readReg i s = .ok .empty) ∧
      (∀ a : Nat, (∀ q ∈ image, q.1 ≠ a) → a < s.cfg.memSize → memRead a s = .ok .empty) ∧
      ((image.map Prod.fst).Nodup → ∀ q ∈ image, ∃ v, q.2.value = .ok v ∧ memRead q.1 s = .ok v)

/-- R232: an image with a malformed instruction anywhere starts no run. -/
def Obligations.MalformedInstructionsAbortTheLoad : Prop :=
  ∀ (m r : Int) (sp : Nat) (p : Parser) (script : List Answer) (image : Image) (a : Nat) (item : ImageItem)
    (e : ArgError), (a, item) ∈ image → item.value = .error e → ∃ f, boot m r sp p script image = .fault f

/-! Arithmetic and comparison (41_arith.md). -/

/-- R151: Add writes the `i32` congruent modulo `2^32` to the exact sum (00_scope.md R19) and changes nothing else. Its
errors are those of the first source, of the second source and of the destination, in that order; nothing is written. -/
def Obligations.AddResultAndErrors : Prop :=
  ∀ (i j k : Nat) (s : State),
    (∀ a b : Word, readReg j s = .ok (.int a) → readReg k s = .ok (.int b) → i < s.cfg.regCount →
      ∃ n : Word, (2 : Int) ^ 32 ∣ n.toInt - (a.toInt + b.toInt) ∧ exec (.add i j k) s = .next (s.setReg i (.int n))) ∧
    ∀ p : Nat, s.pc = p + 1 →
      (∀ c, IntRaises s j (.arg .add 1) c → exec (.add i j k) s = .next { s with run := .faulted ⟨p, c⟩ }) ∧
      (∀ (a : Word) (c : Cause), readReg j s = .ok (.int a) → IntRaises s k (.arg .add 2) c →
        exec (.add i j k) s = .next { s with run := .faulted ⟨p, c⟩ }) ∧
      ∀ a b : Word, readReg j s = .ok (.int a) → readReg k s = .ok (.int b) → s.cfg.regCount ≤ i →
        exec (.add i j k) s = .next { s with run := .faulted ⟨p, .outOfRange .reg i⟩ }

/-- R152: Mul writes the `i32` congruent modulo `2^32` to the exact product (00_scope.md R19) and changes nothing else. Its
errors are those of the first source, of the second source and of the destination, in that order; nothing is written. -/
def Obligations.MulResultAndErrors : Prop :=
  ∀ (i j k : Nat) (s : State),
    (∀ a b : Word, readReg j s = .ok (.int a) → readReg k s = .ok (.int b) → i < s.cfg.regCount →
      ∃ n : Word, (2 : Int) ^ 32 ∣ n.toInt - (a.toInt * b.toInt) ∧ exec (.mul i j k) s = .next (s.setReg i (.int n))) ∧
    ∀ p : Nat, s.pc = p + 1 →
      (∀ c, IntRaises s j (.arg .mul 1) c → exec (.mul i j k) s = .next { s with run := .faulted ⟨p, c⟩ }) ∧
      (∀ (a : Word) (c : Cause), readReg j s = .ok (.int a) → IntRaises s k (.arg .mul 2) c →
        exec (.mul i j k) s = .next { s with run := .faulted ⟨p, c⟩ }) ∧
      ∀ a b : Word, readReg j s = .ok (.int a) → readReg k s = .ok (.int b) → s.cfg.regCount ≤ i →
        exec (.mul i j k) s = .next { s with run := .faulted ⟨p, .outOfRange .reg i⟩ }

/-- R153: Decrement writes one less, `-2^31` wrapping to `2^31-1`, and changes nothing else; it raises the errors of its
operand and then writes nothing. -/
def Obligations.DecrementResultAndErrors : Prop :=
  ∀ (i : Nat) (s : State),
    (∀ a : Word, readReg i s = .ok (.int a) →
      ∃ n : Word, n.toInt = (if a.toInt = -2147483648 then 2147483647 else a.toInt - 1) ∧
        exec (.decrement i) s = .next (s.setReg i (.int n))) ∧
    ∀ (p : Nat) (c : Cause), s.pc = p + 1 → IntRaises s i (.arg .decrement 0) c →
      exec (.decrement i) s = .next { s with run := .faulted ⟨p, c⟩ }

/-- R160, R161: TestEquals writes `flag` for any two Values and changes nothing else: Integers and Texts compare by value,
different tags are not equal, and for two Empty values or two instruction handles the result is open. (`n` is the count
of draws, a field of the model's own.) Its errors are those of the two register indices, in order. -/
def Obligations.TestEqualsResultAndErrors : Prop :=
  ∀ (i j : Nat) (s : State),
    (∀ a b : Value, readReg i s = .ok a → readReg j s = .ok b →
      ∃ (f : Bool) (n : Nat), exec (.testEquals i j) s = .next { s with flag := f, draws := n } ∧
        (∀ m k : Word, a = .int m → b = .int k → f = decide (m.toInt = k.toInt) ∧ n = s.draws) ∧
        (∀ t u : Text, a = .text t → b = .text u → f = decide (t = u) ∧ n = s.draws) ∧
        (a.tag ≠ b.tag → f = false ∧ n = s.draws)) ∧
    ∀ p : Nat, s.pc = p + 1 →
      (s.cfg.regCount ≤ i →
        exec (.testEquals i j) s = .next { s with run := .faulted ⟨p, .outOfRange .reg i⟩ }) ∧
      (i < s.cfg.regCount → s.cfg.regCount ≤ j →
        exec (.testEquals i j) s = .next { s with run := .faulted ⟨p, .outOfRange .reg j⟩ })

/-! Control transfer (42_control.md). -/

/-- R171: Jump sets `pc` to any target that is not negative, in the memory or not, and changes nothing else; a negative
target raises InvalidArgument and `pc` keeps its value. -/
def Obligations.JumpResultAndErrors : Prop :=
  ∀ (t : Word) (s : State),
    (∀ n : Nat, t.toInt = n → exec (.jump t) s = .next { s with pc := n }) ∧
    ∀ p : Nat, s.pc = p + 1 → t.toInt < 0 →
      exec (.jump t) s = .next { s with run := .faulted ⟨p, .invalidArgument t.toInt⟩ }

/-- R175: JumpIfTrue sets `pc` when the flag is true, raising InvalidArgument if the target is negative; when the flag is
false nothing changes, whatever the target. -/
def Obligations.JumpIfTrueResultAndErrors : Prop :=
  ∀ (t : Word) (s : State),
    (s.flag = false → exec (.jumpIfTrue t) s = .next s) ∧
    (s.flag = true →
      (∀ n : Nat, t.toInt = n → exec (.jumpIfTrue t) s = .next { s with pc := n }) ∧
      ∀ p : Nat, s.pc = p + 1 → t.toInt < 0 →
        exec (.jumpIfTrue t) s = .next { s with run := .faulted ⟨p, .invalidArgument t.toInt⟩ })

/-- R176: Call stores its own address plus 1 in the slot the stack register names, decrements the stack register and sets
`pc`; nothing else changes. Its errors in order: a stack register that holds no Integer, a slot outside the memory, a
negative target; with the last the store and the decrement stay. -/
def Obligations.CallResultAndErrors : Prop :=
  ∀ (p : Nat) (t : Word) (s : State), s.pc = p + 1 → s.pc ≤ 2147483647 →
    (∀ sp : Word, readReg s.cfg.spIndex s = .ok (.int sp) → 0 ≤ sp.toInt → sp.toInt < s.cfg.memSize →
      ∃ ra sp' : Word, ra.toInt = p + 1 ∧ sp'.toInt = sp.toInt - 1 ∧
        (∀ n : Nat, t.toInt = n →
          exec (.call t) s =
            .next { (s.setSlot sp.toInt.toNat (.int ra)).setReg s.cfg.spIndex (.int sp') with pc := n }) ∧
        (t.toInt < 0 →
          exec (.call t) s =
            .next { (s.setSlot sp.toInt.toNat (.int ra)).setReg s.cfg.spIndex (.int sp') with
              run := .faulted ⟨p, .invalidArgument t.toInt⟩ })) ∧
    (∀ c, IntRaises s s.cfg.spIndex (.sp .call) c → exec (.call t) s = .next { s with run := .faulted ⟨p, c⟩ }) ∧
    ∀ sp : Word, readReg s.cfg.spIndex s = .ok (.int sp) → ¬(0 ≤ sp.toInt ∧ sp.toInt < s.cfg.memSize) →
      exec (.call t) s = .next { s with run := .faulted ⟨p, .outOfRange .mem sp.toInt⟩ }

/-- R177: Ret takes `pc` from the slot above the stack register's and increments the stack register; the slot keeps its
Value and nothing else changes. Its errors in order: a stack register that holds no Integer, a slot outside the memory,
a popped Value that is no Integer, a negative target; with each of them only `run` changes. -/
def Obligations.RetResultAndErrors : Prop :=
  ∀ s : State, s.cfg.valid →
    (∀ (n : Nat) (t sp : Word), readReg s.cfg.spIndex s = .ok (.int sp) → memRead (sp.toInt + 1) s = .ok (.int t) →
      t.toInt = n →
      ∃ sp' : Word, sp'.toInt = sp.toInt + 1 ∧
        exec .ret s = .next { s.setReg s.cfg.spIndex (.int sp') with pc := n }) ∧
    ∀ p : Nat, s.pc = p + 1 →
      (∀ c, IntRaises s s.cfg.spIndex (.sp .ret) c → exec .ret s = .next { s with run := .faulted ⟨p, c⟩ }) ∧
      ∀ sp : Word, readReg s.cfg.spIndex s = .ok (.int sp) →
        (¬(0 ≤ sp.toInt + 1 ∧ sp.toInt + 1 < s.cfg.memSize) →
          exec .ret s = .next { s with run := .faulted ⟨p, .outOfRange .mem (sp.toInt + 1)⟩ }) ∧
        (∀ v, memRead (sp.toInt + 1) s = .ok v → v.tag ≠ .int →
          exec .ret s = .next { s with run := .faulted ⟨p, .typeMismatch .retTarget v.tag⟩ }) ∧
        ∀ t : Word, memRead (sp.toInt + 1) s = .ok (.int t) → t.toInt < 0 →
          exec .ret s = .next { s with run := .faulted ⟨p, .invalidArgument t.toInt⟩ }

/-- R170, R131: a target at or above the memory's size is accepted by the Jump; it is the next step that raises
OutOfRange, with the target as index and as the address of the fault. -/
def Obligations.TargetsPastTheMemoryFaultAtTheFetch : Prop :=
  ∀ (t : Word) (n : Nat) (s : State), s.run = .running → memRead s.pc s = .ok (.insn (.jump t)) → t.toInt = n →
    s.cfg.memSize ≤ n →
    step s = .next { s with pc := n } ∧
      step { s with pc := n } = .next { s with pc := n, run := .faulted ⟨n, .outOfRange .mem n⟩ }

/-- R178: whatever runs between, if it leaves the configuration, the stack register and the return slot as Call left
them, Ret sets `pc` to the instruction after the Call and restores the stack register. -/
def Obligations.RetUndoesCall : Prop :=
  ∀ (t sp : Word) (s s1 s2 : State), s.cfg.valid → s.pc ≤ 2147483647 → 0 ≤ t.toInt →
    readReg s.cfg.spIndex s = .ok (.int sp) → 0 ≤ sp.toInt → sp.toInt < s.cfg.memSize →
    exec (.call t) s = .next s1 → s2.cfg = s.cfg → readReg s.cfg.spIndex s2 = readReg s.cfg.spIndex s1 →
    memRead sp.toInt s2 = memRead sp.toInt s1 →
    ∃ u, exec .ret s2 = .next u ∧ u.pc = s.pc ∧ u.run = s2.run ∧
      readReg s.cfg.spIndex u = readReg s.cfg.spIndex s

/-! Stack (43_stack.md). -/

/-- R190: Push stores any Value in the slot the stack register names and decrements the stack register; `Push` of the
stack register itself stores its value before the decrement. Its errors in order: a stack register that holds no
Integer, the operand's index, the slot; with each of them only `run` changes. -/
def Obligations.PushResultAndErrors : Prop :=
  ∀ (i : Nat) (s : State),
    (∀ (sp : Word) (v : Value), readReg s.cfg.spIndex s = .ok (.int sp) → readReg i s = .ok v → 0 ≤ sp.toInt →
      sp.toInt < s.cfg.memSize →
      ∃ sp' : Word, sp'.toInt = sp.toInt - 1 ∧
        exec (.push i) s = .next ((s.setSlot sp.toInt.toNat v).setReg s.cfg.spIndex (.int sp'))) ∧
    ∀ p : Nat, s.pc = p + 1 →
      (∀ c, IntRaises s s.cfg.spIndex (.sp .push) c →
        exec (.push i) s = .next { s with run := .faulted ⟨p, c⟩ }) ∧
      ∀ sp : Word, readReg s.cfg.spIndex s = .ok (.int sp) →
        (s.cfg.regCount ≤ i → exec (.push i) s = .next { s with run := .faulted ⟨p, .outOfRange .reg i⟩ }) ∧
        (i < s.cfg.regCount → ¬(0 ≤ sp.toInt ∧ sp.toInt < s.cfg.memSize) →
          exec (.push i) s = .next { s with run := .faulted ⟨p, .outOfRange .mem sp.toInt⟩ })

/-- R192: Pop writes the Value of the slot above the stack register's to its register and then increments the stack
register, so that a Value popped into the stack register is lost; memory keeps its content. Its errors in order: a
stack register that holds no Integer, the slot, the operand's index; with each of them only `run` changes. -/
def Obligations.PopResultAndErrors : Prop :=
  ∀ (i : Nat) (s : State), s.cfg.valid →
    (∀ (sp : Word) (v : Value), readReg s.cfg.spIndex s = .ok (.int sp) → memRead (sp.toInt + 1) s = .ok v →
      i < s.cfg.regCount →
      ∃ sp' : Word, sp'.toInt = sp.toInt + 1 ∧
        exec (.pop i) s = .next ((s.setReg i v).setReg s.cfg.spIndex (.int sp')) ∧
        (i = s.cfg.spIndex → exec (.pop i) s = .next (s.setReg s.cfg.spIndex (.int sp')))) ∧
    ∀ p : Nat, s.pc = p + 1 →
      (∀ c, IntRaises s s.cfg.spIndex (.sp .pop) c → exec (.pop i) s = .next { s with run := .faulted ⟨p, c⟩ }) ∧
      ∀ sp : Word, readReg s.cfg.spIndex s = .ok (.int sp) →
        (¬(0 ≤ sp.toInt + 1 ∧ sp.toInt + 1 < s.cfg.memSize) →
          exec (.pop i) s = .next { s with run := .faulted ⟨p, .outOfRange .mem (sp.toInt + 1)⟩ }) ∧
        (0 ≤ sp.toInt + 1 → sp.toInt + 1 < s.cfg.memSize → s.cfg.regCount ≤ i →
          exec (.pop i) s = .next { s with run := .faulted ⟨p, .outOfRange .reg i⟩ })

/-- R193: Push writes to the current pointer and then decrements it; Pop then reads from the slot above and increments it.
For a register other than the stack register this restores every register; the pushed Value stays in its slot and every
other slot keeps its Value. -/
def Obligations.PopUndoesPush : Prop :=
  ∀ (i q : Nat) (sp : Word) (v : Value) (s : State), i ≠ s.cfg.spIndex → readReg s.cfg.spIndex s = .ok (.int sp) →
    readReg i s = .ok v → 0 ≤ sp.toInt → sp.toInt < s.cfg.memSize →
    ∃ (sp' : Word) (s1 t : State), exec (.push i) s = .next s1 ∧ memRead sp.toInt s1 = .ok v ∧
      readReg s.cfg.spIndex s1 = .ok (.int sp') ∧ sp'.toInt = sp.toInt - 1 ∧
      exec (.pop i) { s1 with pc := q } = .next t ∧ t.run = s.run ∧
      (∀ r, readReg r t = readReg r s) ∧ memRead sp.toInt t = .ok v ∧
      ∀ a, a ≠ sp.toInt → memRead a t = memRead a s

/-- R194: an Integer that an instruction of the stack family leaves in the stack register is the old Integer, or it is one
less (Push, Call, whose slot is the old Integer) or one more (Pop, Ret, whose slot is the new one), exactly, and that
slot exists: no committed value wraps. -/
def Obligations.StackPointerNeverWraps : Prop :=
  ∀ (i : Instr) (n m : Word) (s t : State), s.cfg.valid → readReg s.cfg.spIndex s = .ok (.int n) →
    exec i s = .next t → readReg s.cfg.spIndex t = .ok (.int m) →
    ((∃ r, i = .push r) ∨ (∃ w, i = .call w) →
      m = n ∨ (m.toInt = n.toInt - 1 ∧ 0 ≤ n.toInt ∧ n.toInt < s.cfg.memSize)) ∧
    ((∃ r, i = .pop r) ∨ i = .ret →
      m = n ∨ (m.toInt = n.toInt + 1 ∧ 0 ≤ m.toInt ∧ m.toInt < s.cfg.memSize))

/-! Data movement (44_move.md). -/

/-- R200: Move copies the Value of its source, whatever its tag, to a register or to the slot whose address is the exact
sum of base and offset; nothing else changes. The errors of the source come before those of the destination; nothing is
written. -/
def Obligations.MoveResultAndErrors : Prop :=
  ∀ (d : Loc) (src : Src) (s : State),
    (∀ v : Value, SrcHolds s src v →
      (∀ i, i < s.cfg.regCount → exec (.move (.reg i) src) s = .next (s.setReg i v)) ∧
      ∀ (i : Nat) (off : Int) (b : Word), readReg i s = .ok (.int b) → 0 ≤ b.toInt + off →
        b.toInt + off < s.cfg.memSize →
        exec (.move (.ind i off) src) s = .next (s.setSlot (b.toInt + off).toNat v)) ∧
    ∀ (p : Nat) (c : Cause), s.pc = p + 1 →
      (∀ l, src = .loc l → LocRaises s l (.base .move 1) c →
        exec (.move d src) s = .next { s with run := .faulted ⟨p, c⟩ }) ∧
      ∀ v : Value, SrcHolds s src v → LocRaises s d (.base .move 0) c →
        exec (.move d src) s = .next { s with run := .faulted ⟨p, c⟩ }

/-! Input, output and Halt (45_io_system.md). -/

/-- R211: Echo appends one string for any Value, with nothing added, and changes nothing else: a Text unchanged, a decimal
numeral for an Integer (the rendering is the spec's own, 45_io_system.md R210 and 93_implementation_defined.md G1), and
for an Empty value or an instruction handle a string that is open. (`n` is the count of draws, a field of the model's
own.) It raises the errors of reading its operand and then appends nothing. -/
def Obligations.EchoResultAndErrors : Prop :=
  ∀ (d : Loc) (s : State),
    (∀ v : Value, LocHolds s d v →
      ∃ (t : Text) (n : Nat), exec (.echo d) s = .next { s with out := s.out ++ [t], draws := n } ∧
        (∀ k : Word, v = .int k → IsNumeral k.toInt t ∧ n = s.draws) ∧
        ∀ u : Text, v = .text u → t = u ∧ n = s.draws) ∧
    ∀ (p : Nat) (c : Cause), s.pc = p + 1 → LocRaises s d (.base .echo 0) c →
      exec (.echo d) s = .next { s with run := .faulted ⟨p, c⟩ }

/-- R161, R212 where the spec leaves the value open: TestEquals of two Empty values or of two instruction handles draws the
flag, and Echo of an Empty value or of an instruction handle draws the string; each completes. The free values and the
draw count are the model's form of the draws (log entries 2 and 3). -/
def Obligations.OpenResultsAreDrawn : Prop :=
  ∀ (i j : Nat) (d : Loc) (v : Value) (s : State),
    (readReg i s = .ok .empty → readReg j s = .ok .empty →
      exec (.testEquals i j) s = .next { s with flag := Config.eqEmpty s.draws, draws := s.draws + 1 }) ∧
    (∀ p q : Instr, readReg i s = .ok (.insn p) → readReg j s = .ok (.insn q) →
      exec (.testEquals i j) s = .next { s with flag := Config.eqInsn s.draws p q, draws := s.draws + 1 }) ∧
    (LocHolds s d v → v.tag = .empty ∨ v.tag = .insn →
      exec (.echo d) s = .next { s with out := s.out ++ [Config.echoRepr s.draws v], draws := s.draws + 1 })

/-- R215: IInput takes one answer. A line that parses is stored as an Integer at the absolute address and sets the flag; a
read failure or a line that does not parse only clears the flag, whatever the address; an address outside the memory
raises OutOfRange only after a successful parse, with the line consumed and the flag unchanged. -/
def Obligations.IInputResultAndErrors : Prop :=
  ∀ (a : Word) (s : State),
    (s.nextAnswer = .fail → exec (.iinput a) s = .next { s with flag := false, inPos := s.inPos + 1 }) ∧
    ∀ line : Text, s.nextAnswer = .line line →
      (parseInt s.cfg.parser line = none →
        exec (.iinput a) s = .next { s with flag := false, inPos := s.inPos + 1 }) ∧
      ∀ n : Word, parseInt s.cfg.parser line = some n →
        (0 ≤ a.toInt → a.toInt < s.cfg.memSize →
          exec (.iinput a) s =
            .next { s.setSlot a.toInt.toNat (.int n) with flag := true, inPos := s.inPos + 1 }) ∧
        ∀ p : Nat, s.pc = p + 1 → ¬(0 ≤ a.toInt ∧ a.toInt < s.cfg.memSize) →
          exec (.iinput a) s =
            .next { s with inPos := s.inPos + 1, run := .faulted ⟨p, .outOfRange .mem a.toInt⟩ }

/-- R213: the recommended reading of PARSE_INT accepts exactly an optional sign and one or more ASCII digits with a value
in `-2^31 .. 2^31-1`, and answers that value. -/
def Obligations.RecommendedParserAcceptsExactlyNumerals : Prop :=
  ∀ (t : Text) (n : Word),
    parseInt .recommended t = some n ↔
      ∃ sign ds : Text, (sign = [] ∨ sign = ['+'] ∨ sign = ['-']) ∧ t = sign ++ ds ∧ IsDigits ds ∧
        n.toInt = if sign = ['-'] then -(digitsValue ds : Int) else (digitsValue ds : Int)

/-- R216, R134: Halt ends the run with success and changes nothing else. -/
def Obligations.HaltResult : Prop :=
  ∀ s : State, exec .halt s = .next { s with run := .halted } ∧
    (s.run = .running → memRead s.pc s = .ok (.insn .halt) →
      step s = .next { s with pc := s.pc + 1, run := .halted })

/-! The whole machine: what each instruction leaves unchanged, faulting or not. -/

/-- R37, R85: the registers. Add, Mul, Decrement write their first operand; Move its destination when it is a register;
Pop its operand and the stack register; Push, Call and Ret the stack register; the others none. Every other register
reads as before. -/
def Obligations.RegistersOutsideTheDestinationsKeep : Prop :=
  ∀ (i : Instr) (s t : State) (r : Nat), exec i s = .next t → r ∉ destRegs s i → readReg r t = readReg r s

/-- R61, R62: the memory. Call and Push store to the slot the stack register names, Move with an indirect destination to
its effective address, IInput to its operand; every other slot, and every slot for every other instruction or form,
reads as before. -/
def Obligations.MemoryOutsideTheStoreKeeps : Prop :=
  ∀ (i : Instr) (s t : State) (a : Int), exec i s = .next t → storeAddr s i ≠ some a → memRead a t = memRead a s

/-- R45: no instruction but TestEquals and IInput writes the flag. -/
def Obligations.OnlyTestEqualsAndIInputWriteTheFlag : Prop :=
  ∀ (i : Instr) (s t : State), exec i s = .next t → (∀ j k, i ≠ .testEquals j k) → (∀ a, i ≠ .iinput a) →
    t.flag = s.flag

/-- R46: no instruction but JumpIfTrue reads the flag. Started with another value of it, an instruction gives the same next
state but for the flag; and in a running machine the flag is then the very value written, where the instruction writes
it and completes, and otherwise the value it was started with. -/
def Obligations.OnlyJumpIfTrueReadsTheFlag : Prop :=
  ∀ (i : Instr) (b : Bool) (s t : State), (∀ w, i ≠ .jumpIfTrue w) → exec i s = .next t →
    ∃ b', exec i { s with flag := b } = .next { t with flag := b' } ∧
      (s.run = .running → b' = if i.setsFlag = true ∧ t.run = .running then t.flag else b)

/-- R40, R41: `pc` stays at the incremented value but for Jump, JumpIfTrue, Call and Ret, and those leave it there when
they raise an error; a `pc` they set is a target of `0 .. 2^31-1`. -/
def Obligations.OnlyTransfersSetThePc : Prop :=
  ∀ (i : Instr) (s t : State), exec i s = .next t → t.pc ≠ s.pc →
    i.transfersControl = true ∧ t.pc ≤ 2147483647 ∧ t.run = s.run

/-- R10, R11, R48: only Echo appends to the output, only IInput takes an answer and takes exactly one; nothing changes the
configuration. The script and the draw count are the model's own fields (log entries 2, 3 and 6). -/
def Obligations.PortsAndConfigurationKeep : Prop :=
  ∀ (i : Instr) (s t : State), exec i s = .next t →
    t.cfg = s.cfg ∧ t.script = s.script ∧ ((∀ d, i ≠ .echo d) → t.out = s.out) ∧
      ((∀ a, i ≠ .iinput a) → t.inPos = s.inPos) ∧ ((∃ a, i = .iinput a) → t.inPos = s.inPos + 1) ∧
      ((∀ j k, i ≠ .testEquals j k) → (∀ d, i ≠ .echo d) → t.draws = s.draws)

/-- R10: the output only grows, by at most one string, and by none for any instruction but Echo; no instruction reads it:
what is appended and everything else an instruction does is the same whatever has been written before. -/
def Obligations.OutputIsAppendedAndNeverRead : Prop :=
  ∀ (i : Instr) (s t : State), exec i s = .next t →
    ∃ new : List Text, new.length ≤ 1 ∧ ((∀ d, i ≠ .echo d) → new = []) ∧ t.out = s.out ++ new ∧
      ∀ o, exec i { s with out := o } = .next { t with out := o ++ new }

/-- R31, R32: no step creates a Text or an instruction handle: one that a slot or a register holds afterwards, a slot or a
register held before. -/
def Obligations.TextsAndHandlesAreOnlyCopied : Prop :=
  ∀ (s t : State) (v : Value), step s = .next t → v.tag = .text ∨ v.tag = .insn → t.holds v → s.holds v

/-- R238, R233: an instruction ends the run only with an error of its row of the table, recorded at its own address; a
register that exists never raises OutOfRange. -/
def Obligations.ErrorsAreThoseOfTheTable : Prop :=
  ∀ (i : Instr) (p : Nat) (f : FaultRecord) (s t : State), s.pc = p + 1 → s.run = .running → exec i s = .next t →
    t.run = .faulted f →
    f.addr = p ∧ mayRaise s i f.cause ∧ ∀ r, f.cause = .outOfRange .reg r → (s.cfg.regCount : Int) ≤ r
end

