-- ==== Sys2Proof/Laws/Slots.lean ====
section
/-! SUPPORT. Slots: a read after a write, the canonical form, and legality. -/

namespace Sys2Proof.Machine

open Sys2Proof

namespace Slots

@[simp] theorem get_nil (a : Nat) : Slots.get [] a = .empty := rfl

theorem get_cons (k : Nat) (v : Value) (m : Slots) (a : Nat) :
    Slots.get ((k, v) :: m) a = if k = a then v else Slots.get m a := rfl

theorem mem_erase {m : Slots} {a : Nat} {p : Nat × Value} : p ∈ Slots.erase m a ↔ p ∈ m ∧ p.1 ≠ a := by
  simp [Slots.erase]

theorem mem_insert {m : Slots} {a : Nat} {v : Value} {p : Nat × Value} :
    p ∈ Slots.insert m a v ↔ p = (a, v) ∨ p ∈ m := by
  induction m with
  | nil => simp [Slots.insert]
  | cons q m ih =>
    obtain ⟨k, w⟩ := q
    simp only [Slots.insert]
    split
    · simp
    · simp only [List.mem_cons, ih]; tauto

/-- What a written slot list holds: the new pair unless it is Empty, and the other slots' pairs. -/
theorem mem_set {m : Slots} {a : Nat} {v : Value} {p : Nat × Value} :
    p ∈ Slots.set m a v ↔ (v ≠ .empty ∧ p = (a, v)) ∨ (p ∈ m ∧ p.1 ≠ a) := by
  unfold Slots.set
  split
  · next h => simp [h, mem_erase]
  · next h => simp [h, mem_insert, mem_erase]

theorem get_erase (m : Slots) (a b : Nat) :
    Slots.get (Slots.erase m a) b = if b = a then .empty else Slots.get m b := by
  induction m with
  | nil => simp [Slots.erase]
  | cons q m ih =>
    obtain ⟨k, w⟩ := q
    have ih' : Slots.get (List.filter (fun p => p.1 != a) m) b = _ := ih
    by_cases hk : k = a
    · subst hk
      simp only [Slots.erase, List.filter_cons, bne_self_eq_false, Bool.false_eq_true, if_false, ih', get_cons]
      by_cases hb : b = k
      · simp [hb]
      · simp [hb, Ne.symm hb]
    · have : (k != a) = true := by simpa using hk
      simp only [Slots.erase, List.filter_cons, this, if_true, get_cons, ih']
      by_cases hb : k = b
      · subst hb; simp [hk]
      · simp [hb]

theorem get_insert {m : Slots} {a : Nat} {v : Value} (h : ∀ p ∈ m, p.1 ≠ a) (b : Nat) :
    Slots.get (Slots.insert m a v) b = if b = a then v else Slots.get m b := by
  induction m with
  | nil => simp [Slots.insert, get_cons, eq_comm]
  | cons q m ih =>
    obtain ⟨k, w⟩ := q
    have hk : k ≠ a := h (k, w) (by simp)
    have ih := ih (fun p hp => h p (by simp [hp]))
    simp only [Slots.insert]
    split
    · simp [get_cons, eq_comm]
    · simp only [get_cons, ih]
      by_cases hb : k = b
      · subst hb; simp [hk]
      · simp [hb]

/-- A read after a write: the written slot holds the value written, every other slot what it held. -/
theorem get_set (m : Slots) (a : Nat) (v : Value) (b : Nat) :
    Slots.get (Slots.set m a v) b = if b = a then v else Slots.get m b := by
  unfold Slots.set
  split
  · next h => rw [get_erase, h]
  · rw [get_insert (fun p hp => (mem_erase.1 hp).2), get_erase]
    split <;> rfl

@[simp] theorem get_set_self (m : Slots) (a : Nat) (v : Value) : Slots.get (Slots.set m a v) a = v := by
  simp [get_set]

theorem get_set_of_ne {m : Slots} {a b : Nat} {v : Value} (h : b ≠ a) :
    Slots.get (Slots.set m a v) b = Slots.get m b := by
  simp [get_set, h]

theorem erase_insert {m : Slots} {a : Nat} {v : Value} (h : ∀ p ∈ m, p.1 ≠ a) :
    Slots.erase (Slots.insert m a v) a = m := by
  induction m with
  | nil => simp [Slots.insert, Slots.erase]
  | cons q m ih =>
    have hm : ∀ p ∈ m, p.1 ≠ a := fun p hp => h p (by simp [hp])
    have hq : q.1 ≠ a := h q (by simp)
    have he : m.filter (fun p => p.1 != a) = m := List.filter_eq_self.2 fun p hp => by simpa using hm p hp
    have ih := ih hm
    simp only [Slots.erase] at ih ⊢
    simp only [Slots.insert]
    split
    · simp [hq, he]
    · simp [hq, ih]

/-- The later of two writes to one slot is the one that stays. -/
@[simp] theorem set_set (m : Slots) (a : Nat) (v w : Value) : Slots.set (Slots.set m a v) a w = Slots.set m a w := by
  have : Slots.erase (Slots.set m a v) a = Slots.erase m a := by
    unfold Slots.set
    split
    · simp [Slots.erase]
    · exact erase_insert fun p hp => (mem_erase.1 hp).2
  rw [Slots.set, this, ← Slots.set]

/-- A slot that is read as something other than Empty is listed. -/
theorem mem_of_get {m : Slots} {a : Nat} {v : Value} (h : Slots.get m a = v) (hv : v ≠ .empty) : (a, v) ∈ m := by
  induction m with
  | nil => exact absurd h (by simpa using hv.symm)
  | cons q m ih =>
    obtain ⟨k, w⟩ := q
    rw [get_cons] at h
    split at h
    · next hk => simp [hk, h]
    · exact List.mem_cons_of_mem _ (ih h)

theorem pairwise_insert {m : Slots} {a : Nat} {v : Value} (h : m.Pairwise (fun p q => p.1 < q.1))
    (ha : ∀ p ∈ m, p.1 ≠ a) : (Slots.insert m a v).Pairwise (fun p q => p.1 < q.1) := by
  induction m with
  | nil => simp [Slots.insert]
  | cons q m ih =>
    obtain ⟨k, w⟩ := q
    rw [List.pairwise_cons] at h
    simp only [Slots.insert]
    split
    · next hak =>
      refine List.pairwise_cons.2 ⟨fun p hp => ?_, List.pairwise_cons.2 h⟩
      rcases List.mem_cons.1 hp with rfl | hp
      · exact hak
      · exact lt_trans hak (h.1 p hp)
    · next hak =>
      have hka : k ≠ a := ha (k, w) (by simp)
      refine List.pairwise_cons.2 ⟨fun p hp => ?_, ih h.2 (fun p hp => ha p (by simp [hp]))⟩
      rcases mem_insert.1 hp with rfl | hp
      · show k < a; omega
      · exact h.1 p hp

/-- A write keeps the canonical form. -/
theorem wf_set {m : Slots} (h : Slots.wf m) (a : Nat) (v : Value) : Slots.wf (Slots.set m a v) := by
  refine ⟨?_, fun p hp => ?_⟩
  · have he : (Slots.erase m a).Pairwise (fun p q => p.1 < q.1) := h.1.filter _
    unfold Slots.set
    split
    · exact he
    · exact pairwise_insert he (fun p hp => (mem_erase.1 hp).2)
  · rcases mem_set.1 hp with ⟨hv, rfl⟩ | ⟨hp, -⟩
    · exact hv
    · exact h.2 p hp

theorem legal_nil (n : Nat) : Slots.legal n [] := ⟨⟨List.Pairwise.nil, by simp⟩, by simp⟩

/-- A write of a legal Value to a slot that exists keeps the slots legal. -/
theorem legal_set {n : Nat} {m : Slots} (h : Slots.legal n m) {a : Nat} {v : Value} (ha : a < n)
    (hv : v.legal = true) : Slots.legal n (Slots.set m a v) := by
  refine ⟨wf_set h.1 a v, fun p hp => ?_⟩
  rcases mem_set.1 hp with ⟨-, rfl⟩ | ⟨hp, -⟩
  · exact ⟨ha, hv⟩
  · exact h.2 p hp

/-- Every slot of legal slots reads as a legal Value. -/
theorem legal_get {n : Nat} {m : Slots} (h : Slots.legal n m) (a : Nat) : (Slots.get m a).legal = true := by
  by_cases hv : Slots.get m a = .empty
  · simp [hv, Value.legal]
  · exact (h.2 _ (mem_of_get rfl hv)).2

end Slots

end Sys2Proof.Machine
end

