-- ==== Sys2Proof/Laws/State.lean ====
section
/-! SUPPORT. One lemma for each field and each update of the state, all true by definition. -/

namespace Sys2Proof.Machine

open Sys2Proof

section

variable (s : State) (i : Nat) (v : Value)

@[simp] theorem State.setReg_cfg : (s.setReg i v).cfg = s.cfg := rfl
@[simp] theorem State.setReg_mem : (s.setReg i v).mem = s.mem := rfl
@[simp] theorem State.setReg_x : (s.setReg i v).x = Slots.set s.x i v := rfl
@[simp] theorem State.setReg_pc : (s.setReg i v).pc = s.pc := rfl
@[simp] theorem State.setReg_flag : (s.setReg i v).flag = s.flag := rfl
@[simp] theorem State.setReg_run : (s.setReg i v).run = s.run := rfl
@[simp] theorem State.setReg_out : (s.setReg i v).out = s.out := rfl
@[simp] theorem State.setReg_inPos : (s.setReg i v).inPos = s.inPos := rfl
@[simp] theorem State.setReg_script : (s.setReg i v).script = s.script := rfl
@[simp] theorem State.setReg_draws : (s.setReg i v).draws = s.draws := rfl

end

section

variable (s : State) (a : Nat) (v : Value)

@[simp] theorem State.setSlot_cfg : (s.setSlot a v).cfg = s.cfg := rfl
@[simp] theorem State.setSlot_mem : (s.setSlot a v).mem = Slots.set s.mem a v := rfl
@[simp] theorem State.setSlot_x : (s.setSlot a v).x = s.x := rfl
@[simp] theorem State.setSlot_pc : (s.setSlot a v).pc = s.pc := rfl
@[simp] theorem State.setSlot_flag : (s.setSlot a v).flag = s.flag := rfl
@[simp] theorem State.setSlot_run : (s.setSlot a v).run = s.run := rfl
@[simp] theorem State.setSlot_out : (s.setSlot a v).out = s.out := rfl
@[simp] theorem State.setSlot_inPos : (s.setSlot a v).inPos = s.inPos := rfl
@[simp] theorem State.setSlot_script : (s.setSlot a v).script = s.script := rfl
@[simp] theorem State.setSlot_draws : (s.setSlot a v).draws = s.draws := rfl

end

section

variable (s : State) (p : Nat)

@[simp] theorem State.setPc_cfg : (s.setPc p).cfg = s.cfg := rfl
@[simp] theorem State.setPc_mem : (s.setPc p).mem = s.mem := rfl
@[simp] theorem State.setPc_x : (s.setPc p).x = s.x := rfl
@[simp] theorem State.setPc_pc : (s.setPc p).pc = p := rfl
@[simp] theorem State.setPc_flag : (s.setPc p).flag = s.flag := rfl
@[simp] theorem State.setPc_run : (s.setPc p).run = s.run := rfl
@[simp] theorem State.setPc_out : (s.setPc p).out = s.out := rfl
@[simp] theorem State.setPc_inPos : (s.setPc p).inPos = s.inPos := rfl
@[simp] theorem State.setPc_script : (s.setPc p).script = s.script := rfl
@[simp] theorem State.setPc_draws : (s.setPc p).draws = s.draws := rfl

end

section

variable (s : State) (b : Bool)

@[simp] theorem State.setFlag_cfg : (s.setFlag b).cfg = s.cfg := rfl
@[simp] theorem State.setFlag_mem : (s.setFlag b).mem = s.mem := rfl
@[simp] theorem State.setFlag_x : (s.setFlag b).x = s.x := rfl
@[simp] theorem State.setFlag_pc : (s.setFlag b).pc = s.pc := rfl
@[simp] theorem State.setFlag_flag : (s.setFlag b).flag = b := rfl
@[simp] theorem State.setFlag_run : (s.setFlag b).run = s.run := rfl
@[simp] theorem State.setFlag_out : (s.setFlag b).out = s.out := rfl
@[simp] theorem State.setFlag_inPos : (s.setFlag b).inPos = s.inPos := rfl
@[simp] theorem State.setFlag_script : (s.setFlag b).script = s.script := rfl
@[simp] theorem State.setFlag_draws : (s.setFlag b).draws = s.draws := rfl

end

section

variable (s : State) (r : RunState)

@[simp] theorem State.setRun_cfg : (s.setRun r).cfg = s.cfg := rfl
@[simp] theorem State.setRun_mem : (s.setRun r).mem = s.mem := rfl
@[simp] theorem State.setRun_x : (s.setRun r).x = s.x := rfl
@[simp] theorem State.setRun_pc : (s.setRun r).pc = s.pc := rfl
@[simp] theorem State.setRun_flag : (s.setRun r).flag = s.flag := rfl
@[simp] theorem State.setRun_run : (s.setRun r).run = r := rfl
@[simp] theorem State.setRun_out : (s.setRun r).out = s.out := rfl
@[simp] theorem State.setRun_inPos : (s.setRun r).inPos = s.inPos := rfl
@[simp] theorem State.setRun_script : (s.setRun r).script = s.script := rfl
@[simp] theorem State.setRun_draws : (s.setRun r).draws = s.draws := rfl

end

section

variable (s : State) (n : Nat)

@[simp] theorem State.addDraws_cfg : (s.addDraws n).cfg = s.cfg := rfl
@[simp] theorem State.addDraws_mem : (s.addDraws n).mem = s.mem := rfl
@[simp] theorem State.addDraws_x : (s.addDraws n).x = s.x := rfl
@[simp] theorem State.addDraws_pc : (s.addDraws n).pc = s.pc := rfl
@[simp] theorem State.addDraws_flag : (s.addDraws n).flag = s.flag := rfl
@[simp] theorem State.addDraws_run : (s.addDraws n).run = s.run := rfl
@[simp] theorem State.addDraws_out : (s.addDraws n).out = s.out := rfl
@[simp] theorem State.addDraws_inPos : (s.addDraws n).inPos = s.inPos := rfl
@[simp] theorem State.addDraws_script : (s.addDraws n).script = s.script := rfl
@[simp] theorem State.addDraws_draws : (s.addDraws n).draws = s.draws + n := rfl

end

section

variable (s : State) (t : Text)

@[simp] theorem State.emit_cfg : (s.emit t).cfg = s.cfg := rfl
@[simp] theorem State.emit_mem : (s.emit t).mem = s.mem := rfl
@[simp] theorem State.emit_x : (s.emit t).x = s.x := rfl
@[simp] theorem State.emit_pc : (s.emit t).pc = s.pc := rfl
@[simp] theorem State.emit_flag : (s.emit t).flag = s.flag := rfl
@[simp] theorem State.emit_run : (s.emit t).run = s.run := rfl
@[simp] theorem State.emit_out : (s.emit t).out = s.out ++ [t] := rfl
@[simp] theorem State.emit_inPos : (s.emit t).inPos = s.inPos := rfl
@[simp] theorem State.emit_script : (s.emit t).script = s.script := rfl
@[simp] theorem State.emit_draws : (s.emit t).draws = s.draws := rfl

end

section

variable (s : State)

@[simp] theorem State.consumeAnswer_cfg : (s.consumeAnswer).cfg = s.cfg := rfl
@[simp] theorem State.consumeAnswer_mem : (s.consumeAnswer).mem = s.mem := rfl
@[simp] theorem State.consumeAnswer_x : (s.consumeAnswer).x = s.x := rfl
@[simp] theorem State.consumeAnswer_pc : (s.consumeAnswer).pc = s.pc := rfl
@[simp] theorem State.consumeAnswer_flag : (s.consumeAnswer).flag = s.flag := rfl
@[simp] theorem State.consumeAnswer_run : (s.consumeAnswer).run = s.run := rfl
@[simp] theorem State.consumeAnswer_out : (s.consumeAnswer).out = s.out := rfl
@[simp] theorem State.consumeAnswer_inPos : (s.consumeAnswer).inPos = s.inPos + 1 := rfl
@[simp] theorem State.consumeAnswer_script : (s.consumeAnswer).script = s.script := rfl
@[simp] theorem State.consumeAnswer_draws : (s.consumeAnswer).draws = s.draws := rfl

end

section

variable (s : State) (a : Nat) (c : Cause)

@[simp] theorem State.raise_cfg : (s.raise a c).cfg = s.cfg := rfl
@[simp] theorem State.raise_mem : (s.raise a c).mem = s.mem := rfl
@[simp] theorem State.raise_x : (s.raise a c).x = s.x := rfl
@[simp] theorem State.raise_pc : (s.raise a c).pc = s.pc := rfl
@[simp] theorem State.raise_flag : (s.raise a c).flag = s.flag := rfl
@[simp] theorem State.raise_run : (s.raise a c).run = .faulted ⟨a, c⟩ := rfl
@[simp] theorem State.raise_out : (s.raise a c).out = s.out := rfl
@[simp] theorem State.raise_inPos : (s.raise a c).inPos = s.inPos := rfl
@[simp] theorem State.raise_script : (s.raise a c).script = s.script := rfl
@[simp] theorem State.raise_draws : (s.raise a c).draws = s.draws := rfl

end

section

variable (s : State)

@[simp] theorem State.advance_cfg : (s.advance).cfg = s.cfg := rfl
@[simp] theorem State.advance_mem : (s.advance).mem = s.mem := rfl
@[simp] theorem State.advance_x : (s.advance).x = s.x := rfl
@[simp] theorem State.advance_pc : (s.advance).pc = s.pc + 1 := rfl
@[simp] theorem State.advance_flag : (s.advance).flag = s.flag := rfl
@[simp] theorem State.advance_run : (s.advance).run = s.run := rfl
@[simp] theorem State.advance_out : (s.advance).out = s.out := rfl
@[simp] theorem State.advance_inPos : (s.advance).inPos = s.inPos := rfl
@[simp] theorem State.advance_script : (s.advance).script = s.script := rfl
@[simp] theorem State.advance_draws : (s.advance).draws = s.draws := rfl

end

section

variable (c : Config) (script : List Answer)

@[simp] theorem State.resetWith_cfg : (State.resetWith c script).cfg = c := rfl
@[simp] theorem State.resetWith_mem : (State.resetWith c script).mem = [] := rfl
@[simp] theorem State.resetWith_x : (State.resetWith c script).x = [] := rfl
@[simp] theorem State.resetWith_pc : (State.resetWith c script).pc = 0 := rfl
@[simp] theorem State.resetWith_flag : (State.resetWith c script).flag = false := rfl
@[simp] theorem State.resetWith_run : (State.resetWith c script).run = .running := rfl
@[simp] theorem State.resetWith_out : (State.resetWith c script).out = [] := rfl
@[simp] theorem State.resetWith_inPos : (State.resetWith c script).inPos = 0 := rfl
@[simp] theorem State.resetWith_script : (State.resetWith c script).script = script := rfl
@[simp] theorem State.resetWith_draws : (State.resetWith c script).draws = 0 := rfl

end

end Sys2Proof.Machine
end

