-- ==== Sys2Proof/Laws/Ops.lean ====
section
/-! SUPPORT. What each shared operation can answer: one lemma for its results, one for its errors. -/

namespace Sys2Proof.Machine

open Sys2Proof

/-! Words. -/

theorem word_toInt_bounds (w : Word) : -2147483648 ≤ w.toInt ∧ w.toInt ≤ 2147483647 := by
  have h1 := BitVec.le_toInt w
  have h2 := BitVec.toInt_lt (x := w)
  norm_num at h1 h2
  omega

/-- In the range of `i32`, `wrap32` changes nothing. -/
theorem wrap32_toInt {n : Int} (h1 : -2147483648 ≤ n) (h2 : n ≤ 2147483647) : (wrap32 n).toInt = n := by
  unfold wrap32
  rw [BitVec.toInt_ofInt]
  exact Int.bmod_eq_of_le (by norm_num; omega) (by norm_num; omega)

@[simp] theorem wrap32_of_toInt (w : Word) : wrap32 w.toInt = w := BitVec.ofInt_toInt

/-! Statements of an instruction. -/

@[simp] theorem attempt_ok {α : Type} (addr : Nat) (s : State) (a : α) (k : α → State) :
    attempt addr s (.ok a) k = k a := rfl

@[simp] theorem attempt_error {α : Type} (addr : Nat) (s : State) (c : Cause) (k : α → State) :
    attempt addr s (.error c) k = s.raise addr c := rfl

/-- A statement goes on with its result or raises its error. -/
theorem attempt_cases {α : Type} {addr : Nat} {s t : State} {r : Except Cause α} {k : α → State}
    (h : attempt addr s r k = t) :
    (∃ a, r = .ok a ∧ k a = t) ∨ ∃ c, r = .error c ∧ s.raise addr c = t := by
  cases r with
  | ok a => exact .inl ⟨a, rfl, h⟩
  | error c => exact .inr ⟨c, rfl, h⟩

/-! Registers. -/

theorem readReg_ok_iff {i : Nat} {s : State} {v : Value} :
    readReg i s = .ok v ↔ i < s.cfg.regCount ∧ Slots.get s.x i = v := by
  unfold readReg; split <;> simp_all

theorem readReg_error_iff {i : Nat} {s : State} {c : Cause} :
    readReg i s = .error c ↔ s.cfg.regCount ≤ i ∧ c = .outOfRange .reg i := by
  unfold readReg; split <;> simp_all [eq_comm]

theorem writeReg_ok_iff {i : Nat} {v : Value} {s t : State} :
    writeReg i v s = .ok t ↔ i < s.cfg.regCount ∧ s.setReg i v = t := by
  unfold writeReg; split <;> simp_all

theorem writeReg_error_iff {i : Nat} {v : Value} {s : State} {c : Cause} :
    writeReg i v s = .error c ↔ s.cfg.regCount ≤ i ∧ c = .outOfRange .reg i := by
  unfold writeReg; split <;> simp_all [eq_comm]

/-- The register read depends on the register file and the configuration alone. -/
theorem readReg_congr {s t : State} (hc : t.cfg = s.cfg) (hx : t.x = s.x) (i : Nat) : readReg i t = readReg i s := by
  simp [readReg, hc, hx]

theorem readReg_setReg (s : State) (i : Nat) (v : Value) (j : Nat) :
    readReg j (s.setReg i v) = if j = i ∧ i < s.cfg.regCount then .ok v else readReg j s := by
  simp only [readReg, State.setReg_cfg, State.setReg_x, Slots.get_set]
  by_cases hj : j = i
  · subst hj
    by_cases h : j < s.cfg.regCount <;> simp [h]
  · simp [hj]

/-! Memory. -/

theorem memRead_ok_iff {a : Int} {s : State} {v : Value} :
    memRead a s = .ok v ↔ (0 ≤ a ∧ a < s.cfg.memSize) ∧ Slots.get s.mem a.toNat = v := by
  unfold memRead; split <;> simp_all

theorem memRead_error_iff {a : Int} {s : State} {c : Cause} :
    memRead a s = .error c ↔ ¬(0 ≤ a ∧ a < s.cfg.memSize) ∧ c = .outOfRange .mem a := by
  unfold memRead; split <;> simp_all [eq_comm]

theorem memWrite_ok_iff {a : Int} {v : Value} {s t : State} :
    memWrite a v s = .ok t ↔ (0 ≤ a ∧ a < s.cfg.memSize) ∧ s.setSlot a.toNat v = t := by
  unfold memWrite; split <;> simp_all

theorem memWrite_error_iff {a : Int} {v : Value} {s : State} {c : Cause} :
    memWrite a v s = .error c ↔ ¬(0 ≤ a ∧ a < s.cfg.memSize) ∧ c = .outOfRange .mem a := by
  unfold memWrite; split <;> simp_all [eq_comm]

/-- The memory read depends on the memory and the configuration alone. -/
theorem memRead_congr {s t : State} (hc : t.cfg = s.cfg) (hm : t.mem = s.mem) (a : Int) : memRead a t = memRead a s := by
  simp [memRead, hc, hm]

theorem memRead_setSlot_of_ne {s : State} {a b : Int} {v : Value} (ha : 0 ≤ a) (h : b ≠ a) :
    memRead b (s.setSlot a.toNat v) = memRead b s := by
  by_cases hb : 0 ≤ b ∧ b < s.cfg.memSize
  · have hne : b.toNat ≠ a.toNat := by omega
    simp [memRead, hb, Slots.get_set_of_ne hne]
  · simp [memRead, hb]

theorem memRead_setSlot_self {s : State} {a : Int} {v : Value} (h : 0 ≤ a ∧ a < s.cfg.memSize) :
    memRead a (s.setSlot a.toNat v) = .ok v := by
  simp [memRead, h]

/-! Integers. -/

theorem asInt_ok_iff {v : Value} {site : Site} {n : Int} :
    asInt v site = .ok n ↔ ∃ w : Word, v = .int w ∧ w.toInt = n := by
  cases v <;> simp [asInt]

theorem asInt_error_iff {v : Value} {site : Site} {c : Cause} :
    asInt v site = .error c ↔ v.tag ≠ .int ∧ c = .typeMismatch site v.tag := by
  cases v <;> simp [asInt, Value.tag, eq_comm]

theorem readInt_ok_iff {i : Nat} {site : Site} {s : State} {n : Int} :
    readInt i site s = .ok n ↔ ∃ w : Word, readReg i s = .ok (.int w) ∧ w.toInt = n := by
  unfold readInt
  cases h : readReg i s with
  | error c => simp
  | ok v => simp [asInt_ok_iff]

theorem readInt_error_iff {i : Nat} {site : Site} {s : State} {c : Cause} :
    readInt i site s = .error c ↔ IntRaises s i site c := by
  unfold readInt IntRaises
  cases h : readReg i s with
  | error d =>
    obtain ⟨h1, rfl⟩ := readReg_error_iff.1 h
    simp [h1, eq_comm]
  | ok v =>
    have hi : ¬ s.cfg.regCount ≤ i := by have := (readReg_ok_iff.1 h).1; omega
    simp [asInt_error_iff, hi]

/-! The program counter. -/

theorem setPC_ok_iff {v : Int} {s t : State} : setPC v s = .ok t ↔ 0 ≤ v ∧ s.setPc v.toNat = t := by
  unfold setPC; split <;> simp_all

theorem setPC_error_iff {v : Int} {s : State} {c : Cause} : setPC v s = .error c ↔ v < 0 ∧ c = .invalidArgument v := by
  unfold setPC; split <;> simp_all [eq_comm]

/-! Operands. -/

theorem effAddr_ok_iff {i : Nat} {off : Int} {site : Site} {s : State} {a : Int} :
    effAddr i off site s = .ok a ↔ ∃ w : Word, readReg i s = .ok (.int w) ∧ w.toInt + off = a := by
  unfold effAddr
  cases h : readInt i site s with
  | error c =>
    simp only [reduceCtorEq, false_iff, not_exists, not_and]
    intro w hw
    rw [(readInt_ok_iff (site := site)).2 ⟨w, hw, rfl⟩] at h
    simp at h
  | ok n =>
    obtain ⟨w, hw, rfl⟩ := readInt_ok_iff.1 h
    simp [hw]

theorem effAddr_error_iff {i : Nat} {off : Int} {site : Site} {s : State} {c : Cause} :
    effAddr i off site s = .error c ↔ IntRaises s i site c := by
  rw [← readInt_error_iff]
  unfold effAddr
  cases readInt i site s <;> simp

theorem resolveReadLoc_ok_iff {d : Loc} {site : Site} {s : State} {v : Value} :
    resolveReadLoc d site s = .ok v ↔ LocHolds s d v := by
  cases d with
  | reg i => simp [resolveReadLoc, LocHolds]
  | ind i off =>
    simp only [resolveReadLoc, LocHolds]
    cases h : effAddr i off site s with
    | error c =>
      simp only [reduceCtorEq, false_iff, not_exists, not_and]
      intro w hw _
      rw [(effAddr_ok_iff (site := site)).2 ⟨w, hw, rfl⟩] at h
      simp at h
    | ok a =>
      obtain ⟨w, hw, rfl⟩ := effAddr_ok_iff.1 h
      simp [hw]

theorem resolveReadLoc_error_iff {d : Loc} {site : Site} {s : State} {c : Cause} :
    resolveReadLoc d site s = .error c ↔ LocRaises s d site c := by
  cases d with
  | reg i => simp [resolveReadLoc, LocRaises, readReg_error_iff]
  | ind i off =>
    simp only [resolveReadLoc, LocRaises]
    cases h : effAddr i off site s with
    | error d =>
      have hd := effAddr_error_iff.1 h
      simp only [Except.error.injEq]
      constructor
      · rintro rfl
        rcases hd with hd | hd
        · exact .inl hd
        · exact .inr (.inl hd)
      · intro hc
        have hc' : IntRaises s i site c := by
          rcases hc with hc | hc | ⟨b, hb, -⟩
          · exact .inl hc
          · exact .inr hc
          · rw [(effAddr_ok_iff (site := site)).2 ⟨b, hb, rfl⟩] at h
            simp at h
        rw [effAddr_error_iff.2 hc'] at h
        simpa using h.symm
    | ok a =>
      obtain ⟨w, hw, rfl⟩ := effAddr_ok_iff.1 h
      have hr := (readReg_ok_iff.1 hw).1
      constructor
      · intro hc
        obtain ⟨h1, rfl⟩ := memRead_error_iff.1 hc
        exact .inr (.inr ⟨w, hw, h1, rfl⟩)
      · rintro (⟨h1, -⟩ | ⟨v, hv, ht, -⟩ | ⟨b, hb, h1, rfl⟩)
        · omega
        · rw [hw] at hv
          obtain rfl : Value.int w = v := by simpa using hv
          simp [Value.tag] at ht
        · rw [hw] at hb
          obtain rfl : w = b := by simpa using hb
          exact memRead_error_iff.2 ⟨h1, rfl⟩

theorem resolveRead_ok_iff {src : Src} {site : Site} {s : State} {v : Value} :
    resolveRead src site s = .ok v ↔ SrcHolds s src v := by
  cases src with
  | loc d => exact resolveReadLoc_ok_iff
  | num n => simp [resolveRead, SrcHolds, eq_comm]

theorem resolveRead_error_iff {src : Src} {site : Site} {s : State} {c : Cause} :
    resolveRead src site s = .error c ↔ ∃ d, src = .loc d ∧ LocRaises s d site c := by
  cases src with
  | loc d => simp [resolveRead, resolveReadLoc_error_iff]
  | num n => simp [resolveRead]

/-- A completed resolveWrite wrote one register, or one slot that exists. -/
theorem resolveWrite_ok_iff {d : Loc} {v : Value} {site : Site} {s t : State} :
    resolveWrite d v site s = .ok t ↔
      (∃ i, d = .reg i ∧ i < s.cfg.regCount ∧ s.setReg i v = t) ∨
        ∃ i off a, d = .ind i off ∧ effAddr i off site s = .ok a ∧ (0 ≤ a ∧ a < s.cfg.memSize) ∧
          s.setSlot a.toNat v = t := by
  cases d with
  | reg i => simp [resolveWrite, writeReg_ok_iff]
  | ind i off =>
    simp only [resolveWrite]
    cases h : effAddr i off site s with
    | error c => simp [h]
    | ok a => simp [h, memWrite_ok_iff]

theorem resolveWrite_error_iff {d : Loc} {v : Value} {site : Site} {s : State} {c : Cause} :
    resolveWrite d v site s = .error c ↔ LocRaises s d site c := by
  rw [← resolveReadLoc_error_iff]
  cases d with
  | reg i => simp [resolveWrite, resolveReadLoc, writeReg_error_iff, readReg_error_iff]
  | ind i off =>
    simp only [resolveWrite, resolveReadLoc]
    cases h : effAddr i off site s with
    | error c => simp
    | ok a => simp [memWrite_error_iff, memRead_error_iff]

/-! The fetch. -/

theorem fetch_ok_iff {s : State} {i : Instr} :
    fetch s = .ok i ↔ s.pc < s.cfg.memSize ∧ Slots.get s.mem s.pc = .insn i := by
  have hm : memRead s.pc s = .ok (.insn i) ↔ s.pc < s.cfg.memSize ∧ Slots.get s.mem s.pc = .insn i := by
    simp [memRead_ok_iff]
  rw [← hm]
  unfold fetch
  cases h : memRead s.pc s with
  | error c => simp
  | ok v => cases v <;> simp

theorem fetch_error_iff {s : State} {c : Cause} :
    fetch s = .error c ↔ (s.cfg.memSize ≤ s.pc ∧ c = .outOfRange .mem s.pc) ∨
      (s.pc < s.cfg.memSize ∧ (Slots.get s.mem s.pc).tag ≠ .insn ∧
        c = .typeMismatch .fetch (Slots.get s.mem s.pc).tag) := by
  by_cases hp : s.pc < s.cfg.memSize
  · have hm : memRead s.pc s = .ok (Slots.get s.mem s.pc) := by simp [memRead, hp]
    have hn : ¬ s.cfg.memSize ≤ s.pc := by omega
    unfold fetch
    rw [hm]
    cases h : Slots.get s.mem s.pc <;> simp [Value.tag, hp, eq_comm]
  · have hm : memRead s.pc s = .error (.outOfRange .mem s.pc) := by simp [memRead, hp]
    have hn : s.cfg.memSize ≤ s.pc := by omega
    unfold fetch
    rw [hm]
    simp [hp, hn, eq_comm]

end Sys2Proof.Machine
end

