-- ==== Sys2Proof/Laws/Meanings.lean ====
section
/-! SUPPORT. What each meaning can answer: its effect, or the error it ends in. -/

namespace Sys2Proof.Machine

open Sys2Proof

variable {s t : State}

/-! The stack register. -/

theorem readStackPtr_ok_iff {op : Opcode} {n : Int} :
    readStackPtr op s = .ok n ↔ ∃ w : Word, readReg s.cfg.spIndex s = .ok (.int w) ∧ w.toInt = n := readInt_ok_iff

theorem readStackPtr_error_iff {op : Opcode} {c : Cause} :
    readStackPtr op s = .error c ↔ IntRaises s s.cfg.spIndex (.sp op) c := readInt_error_iff

theorem writeStackPtr_ok_iff {n : Int} :
    writeStackPtr n s = .ok t ↔ s.cfg.spIndex < s.cfg.regCount ∧ s.setReg s.cfg.spIndex (.int (wrap32 n)) = t :=
  writeReg_ok_iff

/-- Where the stack register can be read it can be written. -/
theorem writeStackPtr_error {n : Int} {c : Cause} {v : Value} (hc : t.cfg = s.cfg)
    (hr : readReg s.cfg.spIndex s = .ok v) : writeStackPtr n t ≠ .error c := by
  intro h
  have h1 := (writeReg_error_iff.1 h).1
  have h2 := (readReg_ok_iff.1 hr).1
  rw [hc] at h1
  omega

/-! Arithmetic and comparison. -/

theorem execAdd_cases {i j k : Nat} (h : execAdd i j k s = .next t) :
    (∃ c, mayRaise s (.add i j k) c ∧ t = s.raise s.instrAddr c) ∨
      ∃ a b : Word, readReg j s = .ok (.int a) ∧ readReg k s = .ok (.int b) ∧ i < s.cfg.regCount ∧
        t = s.setReg i (.int (wrap32 (a.toInt + b.toInt))) := by
  simp only [execAdd, Host.Outcome.next.injEq] at h
  rcases attempt_cases h with ⟨a, ha, h⟩ | ⟨c, hc, rfl⟩
  · obtain ⟨a, hra, rfl⟩ := readInt_ok_iff.1 ha
    rcases attempt_cases h with ⟨b, hb, h⟩ | ⟨c, hc, rfl⟩
    · obtain ⟨b, hrb, rfl⟩ := readInt_ok_iff.1 hb
      rcases attempt_cases h with ⟨u, hu, rfl⟩ | ⟨c, hc, rfl⟩
      · obtain ⟨hi, rfl⟩ := writeReg_ok_iff.1 hu
        exact .inr ⟨a, b, hra, hrb, hi, rfl⟩
      · exact .inl ⟨c, .inr (.inr (writeReg_error_iff.1 hc)), rfl⟩
    · exact .inl ⟨c, .inr (.inl (readInt_error_iff.1 hc)), rfl⟩
  · exact .inl ⟨c, .inl (readInt_error_iff.1 hc), rfl⟩

theorem execMul_cases {i j k : Nat} (h : execMul i j k s = .next t) :
    (∃ c, mayRaise s (.mul i j k) c ∧ t = s.raise s.instrAddr c) ∨
      ∃ a b : Word, readReg j s = .ok (.int a) ∧ readReg k s = .ok (.int b) ∧ i < s.cfg.regCount ∧
        t = s.setReg i (.int (wrap32 (a.toInt * b.toInt))) := by
  simp only [execMul, Host.Outcome.next.injEq] at h
  rcases attempt_cases h with ⟨a, ha, h⟩ | ⟨c, hc, rfl⟩
  · obtain ⟨a, hra, rfl⟩ := readInt_ok_iff.1 ha
    rcases attempt_cases h with ⟨b, hb, h⟩ | ⟨c, hc, rfl⟩
    · obtain ⟨b, hrb, rfl⟩ := readInt_ok_iff.1 hb
      rcases attempt_cases h with ⟨u, hu, rfl⟩ | ⟨c, hc, rfl⟩
      · obtain ⟨hi, rfl⟩ := writeReg_ok_iff.1 hu
        exact .inr ⟨a, b, hra, hrb, hi, rfl⟩
      · exact .inl ⟨c, .inr (.inr (writeReg_error_iff.1 hc)), rfl⟩
    · exact .inl ⟨c, .inr (.inl (readInt_error_iff.1 hc)), rfl⟩
  · exact .inl ⟨c, .inl (readInt_error_iff.1 hc), rfl⟩

theorem execDecrement_cases {i : Nat} (h : execDecrement i s = .next t) :
    (∃ c, mayRaise s (.decrement i) c ∧ t = s.raise s.instrAddr c) ∨
      ∃ a : Word, readReg i s = .ok (.int a) ∧ t = s.setReg i (.int (wrap32 (a.toInt - 1))) := by
  simp only [execDecrement, Host.Outcome.next.injEq] at h
  rcases attempt_cases h with ⟨a, ha, h⟩ | ⟨c, hc, rfl⟩
  · obtain ⟨a, hra, rfl⟩ := readInt_ok_iff.1 ha
    rcases attempt_cases h with ⟨u, hu, rfl⟩ | ⟨c, hc, rfl⟩
    · obtain ⟨-, rfl⟩ := writeReg_ok_iff.1 hu
      exact .inr ⟨a, hra, rfl⟩
    · exact .inl ⟨c, .inl (writeReg_error_iff.1 hc), rfl⟩
  · exact .inl ⟨c, readInt_error_iff.1 hc, rfl⟩

theorem execTestEquals_cases {i j : Nat} (h : execTestEquals i j s = .next t) :
    (∃ c, mayRaise s (.testEquals i j) c ∧ t = s.raise s.instrAddr c) ∨
      ∃ a b, readReg i s = .ok a ∧ readReg j s = .ok b ∧
        t = (s.setFlag (valueEq s.draws a b)).addDraws (valueEqDraws a b) := by
  simp only [execTestEquals, Host.Outcome.next.injEq] at h
  rcases attempt_cases h with ⟨a, ha, h⟩ | ⟨c, hc, rfl⟩
  · rcases attempt_cases h with ⟨b, hb, rfl⟩ | ⟨c, hc, rfl⟩
    · exact .inr ⟨a, b, ha, hb, rfl⟩
    · exact .inl ⟨c, .inr (readReg_error_iff.1 hc), rfl⟩
  · exact .inl ⟨c, .inl (readReg_error_iff.1 hc), rfl⟩

/-! Control transfer. -/

theorem execJump_cases {w : Word} (h : execJump w s = .next t) :
    (∃ c, mayRaise s (.jump w) c ∧ t = s.raise s.instrAddr c) ∨ (0 ≤ w.toInt ∧ t = s.setPc w.toInt.toNat) := by
  simp only [execJump, Host.Outcome.next.injEq] at h
  rcases attempt_cases h with ⟨u, hu, rfl⟩ | ⟨c, hc, rfl⟩
  · obtain ⟨hw, rfl⟩ := setPC_ok_iff.1 hu
    exact .inr ⟨hw, rfl⟩
  · exact .inl ⟨c, setPC_error_iff.1 hc, rfl⟩

theorem execJumpIfTrue_cases {w : Word} (h : execJumpIfTrue w s = .next t) :
    (∃ c, mayRaise s (.jumpIfTrue w) c ∧ t = s.raise s.instrAddr c) ∨
      (s.flag = true ∧ 0 ≤ w.toInt ∧ t = s.setPc w.toInt.toNat) ∨ (s.flag = false ∧ t = s) := by
  simp only [execJumpIfTrue, Host.Outcome.next.injEq] at h
  cases hf : s.flag with
  | true =>
    rw [hf] at h
    rcases attempt_cases h with ⟨u, hu, rfl⟩ | ⟨c, hc, rfl⟩
    · obtain ⟨hw, rfl⟩ := setPC_ok_iff.1 hu
      exact .inr (.inl ⟨rfl, hw, rfl⟩)
    · exact .inl ⟨c, ⟨hf, setPC_error_iff.1 hc⟩, rfl⟩
  | false =>
    rw [hf] at h
    exact .inr (.inr ⟨rfl, h.symm⟩)

/-- The state Call leaves before it sets `pc`: the return address stored, the stack register decremented. -/
def callPushed (s : State) (sp : Word) : State :=
  (s.setSlot sp.toInt.toNat (.int (wrap32 s.pc))).setReg s.cfg.spIndex (.int (wrap32 (sp.toInt - 1)))

theorem execCall_cases {w : Word} (h : execCall w s = .next t) :
    (∃ c, mayRaise s (.call w) c ∧ t = s.raise s.instrAddr c) ∨
      ∃ sp : Word, readReg s.cfg.spIndex s = .ok (.int sp) ∧ (0 ≤ sp.toInt ∧ sp.toInt < s.cfg.memSize) ∧
        ((w.toInt < 0 ∧ t = (callPushed s sp).raise s.instrAddr (.invalidArgument w.toInt)) ∨
          (0 ≤ w.toInt ∧ t = (callPushed s sp).setPc w.toInt.toNat)) := by
  simp only [execCall, Host.Outcome.next.injEq] at h
  rcases attempt_cases h with ⟨sp, hsp, h⟩ | ⟨c, hc, rfl⟩
  · obtain ⟨sp, hr, rfl⟩ := readStackPtr_ok_iff.1 hsp
    rcases attempt_cases h with ⟨u, hu, h⟩ | ⟨c, hc, rfl⟩
    · obtain ⟨hm, rfl⟩ := memWrite_ok_iff.1 hu
      refine .inr ⟨sp, hr, hm, ?_⟩
      rcases attempt_cases h with ⟨u, hu, h⟩ | ⟨c, hc, rfl⟩
      · obtain ⟨-, rfl⟩ := writeStackPtr_ok_iff.1 hu
        rcases attempt_cases h with ⟨u, hu, rfl⟩ | ⟨c, hc, rfl⟩
        · obtain ⟨hw, rfl⟩ := setPC_ok_iff.1 hu
          exact .inr ⟨hw, rfl⟩
        · obtain ⟨hw, rfl⟩ := setPC_error_iff.1 hc
          exact .inl ⟨hw, rfl⟩
      · exact absurd hc (writeStackPtr_error (s := s) rfl hr)
    · obtain ⟨hm, rfl⟩ := memWrite_error_iff.1 hc
      exact .inl ⟨_, .inr (.inl ⟨sp, hr, hm, rfl⟩), rfl⟩
  · exact .inl ⟨c, .inl (readStackPtr_error_iff.1 hc), rfl⟩

theorem execRet_cases (h : execRet s = .next t) :
    (∃ c, mayRaise s .ret c ∧ t = s.raise s.instrAddr c) ∨
      ∃ sp w : Word, readReg s.cfg.spIndex s = .ok (.int sp) ∧ memRead (sp.toInt + 1) s = .ok (.int w) ∧
        0 ≤ w.toInt ∧
        t = (s.setPc w.toInt.toNat).setReg s.cfg.spIndex (.int (wrap32 (sp.toInt + 1))) := by
  simp only [execRet, Host.Outcome.next.injEq] at h
  rcases attempt_cases h with ⟨sp, hsp, h⟩ | ⟨c, hc, rfl⟩
  · obtain ⟨sp, hr, rfl⟩ := readStackPtr_ok_iff.1 hsp
    rcases attempt_cases h with ⟨v, hv, h⟩ | ⟨c, hc, rfl⟩
    · rcases attempt_cases h with ⟨w, hw, h⟩ | ⟨c, hc, rfl⟩
      · obtain ⟨w, rfl, rfl⟩ := asInt_ok_iff.1 hw
        rcases attempt_cases h with ⟨u, hu, h⟩ | ⟨c, hc, rfl⟩
        · obtain ⟨h0, rfl⟩ := setPC_ok_iff.1 hu
          rcases attempt_cases h with ⟨u, hu, rfl⟩ | ⟨c, hc, rfl⟩
          · obtain ⟨-, rfl⟩ := writeStackPtr_ok_iff.1 hu
            exact .inr ⟨sp, w, hr, hv, h0, rfl⟩
          · exact absurd hc (writeStackPtr_error (s := s) rfl hr)
        · obtain ⟨h0, rfl⟩ := setPC_error_iff.1 hc
          exact .inl ⟨_, .inr ⟨sp, hr, .inr (.inr ⟨w, hv, h0, rfl⟩)⟩, rfl⟩
      · obtain ⟨ht, rfl⟩ := asInt_error_iff.1 hc
        exact .inl ⟨_, .inr ⟨sp, hr, .inr (.inl ⟨v, hv, ht, rfl⟩)⟩, rfl⟩
    · obtain ⟨hm, rfl⟩ := memRead_error_iff.1 hc
      exact .inl ⟨_, .inr ⟨sp, hr, .inl ⟨hm, rfl⟩⟩, rfl⟩
  · exact .inl ⟨c, .inl (readStackPtr_error_iff.1 hc), rfl⟩

/-! Stack. -/

theorem execPush_cases {i : Nat} (h : execPush i s = .next t) :
    (∃ c, mayRaise s (.push i) c ∧ t = s.raise s.instrAddr c) ∨
      ∃ (sp : Word) (v : Value), readReg s.cfg.spIndex s = .ok (.int sp) ∧ readReg i s = .ok v ∧
        (0 ≤ sp.toInt ∧ sp.toInt < s.cfg.memSize) ∧
        t = (s.setSlot sp.toInt.toNat v).setReg s.cfg.spIndex (.int (wrap32 (sp.toInt - 1))) := by
  simp only [execPush, Host.Outcome.next.injEq] at h
  rcases attempt_cases h with ⟨sp, hsp, h⟩ | ⟨c, hc, rfl⟩
  · obtain ⟨sp, hr, rfl⟩ := readStackPtr_ok_iff.1 hsp
    rcases attempt_cases h with ⟨v, hv, h⟩ | ⟨c, hc, rfl⟩
    · rcases attempt_cases h with ⟨u, hu, h⟩ | ⟨c, hc, rfl⟩
      · obtain ⟨hm, rfl⟩ := memWrite_ok_iff.1 hu
        rcases attempt_cases h with ⟨u, hu, rfl⟩ | ⟨c, hc, rfl⟩
        · obtain ⟨-, rfl⟩ := writeStackPtr_ok_iff.1 hu
          exact .inr ⟨sp, v, hr, hv, hm, rfl⟩
        · exact absurd hc (writeStackPtr_error (s := s) rfl hr)
      · obtain ⟨hm, rfl⟩ := memWrite_error_iff.1 hc
        exact .inl ⟨_, .inr (.inr ⟨sp, hr, hm, rfl⟩), rfl⟩
    · exact .inl ⟨c, .inr (.inl (readReg_error_iff.1 hc)), rfl⟩
  · exact .inl ⟨c, .inl (readStackPtr_error_iff.1 hc), rfl⟩

theorem execPop_cases {i : Nat} (h : execPop i s = .next t) :
    (∃ c, mayRaise s (.pop i) c ∧ t = s.raise s.instrAddr c) ∨
      ∃ (sp : Word) (v : Value), readReg s.cfg.spIndex s = .ok (.int sp) ∧ memRead (sp.toInt + 1) s = .ok v ∧
        i < s.cfg.regCount ∧
        t = (s.setReg i v).setReg s.cfg.spIndex (.int (wrap32 (sp.toInt + 1))) := by
  simp only [execPop, Host.Outcome.next.injEq] at h
  rcases attempt_cases h with ⟨sp, hsp, h⟩ | ⟨c, hc, rfl⟩
  · obtain ⟨sp, hr, rfl⟩ := readStackPtr_ok_iff.1 hsp
    rcases attempt_cases h with ⟨v, hv, h⟩ | ⟨c, hc, rfl⟩
    · rcases attempt_cases h with ⟨u, hu, h⟩ | ⟨c, hc, rfl⟩
      · obtain ⟨hi, rfl⟩ := writeReg_ok_iff.1 hu
        rcases attempt_cases h with ⟨u, hu, rfl⟩ | ⟨c, hc, rfl⟩
        · obtain ⟨-, rfl⟩ := writeStackPtr_ok_iff.1 hu
          exact .inr ⟨sp, v, hr, hv, hi, rfl⟩
        · exact absurd hc (writeStackPtr_error (s := s) rfl hr)
      · exact .inl ⟨c, .inr (.inl (writeReg_error_iff.1 hc)), rfl⟩
    · obtain ⟨hm, rfl⟩ := memRead_error_iff.1 hc
      exact .inl ⟨_, .inr (.inr ⟨sp, hr, hm, rfl⟩), rfl⟩
  · exact .inl ⟨c, .inl (readStackPtr_error_iff.1 hc), rfl⟩

/-! Data movement. -/

theorem execMove_cases {d : Loc} {src : Src} (h : execMove d src s = .next t) :
    (∃ c, mayRaise s (.move d src) c ∧ t = s.raise s.instrAddr c) ∨
      ∃ v, SrcHolds s src v ∧
        ((∃ i, d = .reg i ∧ i < s.cfg.regCount ∧ t = s.setReg i v) ∨
          ∃ i off a, d = .ind i off ∧ effAddr i off (.base .move 0) s = .ok a ∧ (0 ≤ a ∧ a < s.cfg.memSize) ∧
            t = s.setSlot a.toNat v) := by
  simp only [execMove, Host.Outcome.next.injEq] at h
  rcases attempt_cases h with ⟨v, hv, h⟩ | ⟨c, hc, rfl⟩
  · rcases attempt_cases h with ⟨u, hu, rfl⟩ | ⟨c, hc, rfl⟩
    · refine .inr ⟨v, resolveRead_ok_iff.1 hv, ?_⟩
      rcases resolveWrite_ok_iff.1 hu with ⟨i, hd, hi, rfl⟩ | ⟨i, off, a, hd, ha, hm, rfl⟩
      · exact .inl ⟨i, hd, hi, rfl⟩
      · exact .inr ⟨i, off, a, hd, ha, hm, rfl⟩
    · exact .inl ⟨c, .inr (resolveWrite_error_iff.1 hc), rfl⟩
  · exact .inl ⟨c, .inl (resolveRead_error_iff.1 hc), rfl⟩

/-! Input, output and Halt. -/

theorem execEcho_cases {d : Loc} (h : execEcho d s = .next t) :
    (∃ c, mayRaise s (.echo d) c ∧ t = s.raise s.instrAddr c) ∨
      ∃ v, LocHolds s d v ∧ t = (s.emit (reprText s.draws v)).addDraws (reprDraws v) := by
  simp only [execEcho, Host.Outcome.next.injEq] at h
  rcases attempt_cases h with ⟨v, hv, rfl⟩ | ⟨c, hc, rfl⟩
  · exact .inr ⟨v, resolveReadLoc_ok_iff.1 hv, rfl⟩
  · exact .inl ⟨c, resolveReadLoc_error_iff.1 hc, rfl⟩

theorem execIinput_cases {a : Word} (h : execIinput a s = .next t) :
    (∃ c, mayRaise s (.iinput a) c ∧ t = s.consumeAnswer.raise s.instrAddr c) ∨
      t = s.consumeAnswer.setFlag false ∨
      ∃ line n, s.nextAnswer = .line line ∧ parseInt s.cfg.parser line = some n ∧
        (0 ≤ a.toInt ∧ a.toInt < s.cfg.memSize) ∧
        t = (s.consumeAnswer.setSlot a.toInt.toNat (.int n)).setFlag true := by
  simp only [execIinput, Host.Outcome.next.injEq] at h
  split at h
  · exact .inr (.inl h.symm)
  · next line hl =>
    split at h
    · exact .inr (.inl h.symm)
    · next n hn =>
      rcases attempt_cases h with ⟨u, hu, rfl⟩ | ⟨c, hc, rfl⟩
      · obtain ⟨hm, rfl⟩ := memWrite_ok_iff.1 hu
        exact .inr (.inr ⟨line, n, hl, hn, hm, rfl⟩)
      · exact .inl ⟨c, memWrite_error_iff (s := s.consumeAnswer).1 hc, rfl⟩

theorem execHalt_cases (h : execHalt s = .next t) : t = s.setRun .halted := by
  simpa [execHalt, eq_comm] using h

/-! The step. -/

theorem exec_next (i : Instr) (s : State) : ∃ t, exec i s = .next t := by
  cases i <;> exact ⟨_, rfl⟩

/-- What a step does: nothing once the run has ended; else it records a fetch error or executes the fetched
instruction with `pc` incremented. -/
theorem step_cases (h : step s = .next t) :
    (s.run ≠ .running ∧ t = s) ∨
      (s.run = .running ∧ ∃ c, fetch s = .error c ∧ t = s.raise s.pc c) ∨
      (s.run = .running ∧ ∃ i, fetch s = .ok i ∧ exec i s.advance = .next t) := by
  unfold step at h
  split at h
  · next hr =>
    split at h
    · next c hc => exact .inr (.inl ⟨hr, c, hc, by simpa [eq_comm] using h⟩)
    · next i hi => exact .inr (.inr ⟨hr, i, hi, h⟩)
  · next hr => exact .inl ⟨by simp [hr], by simpa [eq_comm] using h⟩
  · next hr => exact .inl ⟨by simp [hr], by simpa [eq_comm] using h⟩

end Sys2Proof.Machine
end

