-- ==== Sys2Proof/Laws/PerInstr.lean ====
section
/-! SUPPORT. Facts about every instruction as syntax, one lemma for each constructor. -/

namespace Sys2Proof.Laws.RecordShape

open Sys2Proof

/-- The record of `i` is a header with no reserved bit, the opcode number of `i` and a legal `K`, and one word for each
operand (30_encoding.md R103, R105). -/
def Statement (i : Instr) : Prop :=
  ∃ h ws, encode i = h :: ws ∧ ws.length = i.opcode.arity ∧ headerReserved h = 0 ∧
    Opcode.ofNumber (headerOp h) = some i.opcode ∧ (headerKind h && i.opcode != .move) = false

theorem add (i j k : Nat) : Statement (.add i j k) := ⟨_, _, rfl, rfl, by decide, rfl, rfl⟩
theorem mul (i j k : Nat) : Statement (.mul i j k) := ⟨_, _, rfl, rfl, by decide, rfl, rfl⟩
theorem decrement (i : Nat) : Statement (.decrement i) := ⟨_, _, rfl, rfl, by decide, rfl, rfl⟩
theorem testEquals (i j : Nat) : Statement (.testEquals i j) := ⟨_, _, rfl, rfl, by decide, rfl, rfl⟩
theorem jump (t : Word) : Statement (.jump t) := ⟨_, _, rfl, rfl, by decide, rfl, rfl⟩
theorem jumpIfTrue (t : Word) : Statement (.jumpIfTrue t) := ⟨_, _, rfl, rfl, by decide, rfl, rfl⟩
theorem call (t : Word) : Statement (.call t) := ⟨_, _, rfl, rfl, by decide, rfl, rfl⟩
theorem ret : Statement .ret := ⟨_, _, rfl, rfl, by decide, rfl, rfl⟩
theorem push (i : Nat) : Statement (.push i) := ⟨_, _, rfl, rfl, by decide, rfl, rfl⟩
theorem pop (i : Nat) : Statement (.pop i) := ⟨_, _, rfl, rfl, by decide, rfl, rfl⟩
theorem move (d : Loc) (src : Src) : Statement (.move d src) := by
  cases src <;> exact ⟨_, _, rfl, rfl, by decide, rfl, rfl⟩
theorem echo (d : Loc) : Statement (.echo d) := ⟨_, _, rfl, rfl, by decide, rfl, rfl⟩
theorem iinput (a : Word) : Statement (.iinput a) := ⟨_, _, rfl, rfl, by decide, rfl, rfl⟩
theorem halt : Statement .halt := ⟨_, _, rfl, rfl, by decide, rfl, rfl⟩

end Sys2Proof.Laws.RecordShape
end

