-- ==== Sys2Proof/Tests/Slice0.lean ====
section
/-! SUPPORT. Tests, their expected results from 95_test_vectors.md or worked by hand from the rules; and for each statement
with hypotheses a witness that meets them. -/

open Sys2Proof Sys2Proof.Machine

namespace Sys2Proof.Tests

/-! What a result is, as a check that evaluates. -/

def reaches : Result → State → Bool
  | .next s, t => decide (s = t)
  | .fault _, _ => false
  | .refused _, _ => false

def faults : Result → Fault → Bool
  | .next _, _ => false
  | .fault f, g => decide (f = g)
  | .refused _, _ => false

def gives {ε α : Type} [DecidableEq α] : Except ε α → α → Bool
  | .ok a, b => decide (a = b)
  | .error _, _ => false

def raises {ε α : Type} [DecidableEq ε] : Except ε α → ε → Bool
  | .ok _, _ => false
  | .error e, f => decide (e = f)

/-! Well-formedness: an ill-formed term for each check. -/

theorem test_wf_refuses_register_256 :
    (Instr.add 256 0 0).wf = false ∧ (Instr.add 0 256 0).wf = false ∧ (Instr.add 0 0 256).wf = false ∧
    (Instr.mul 256 0 0).wf = false ∧ (Instr.mul 0 256 0).wf = false ∧ (Instr.mul 0 0 256).wf = false ∧
    (Instr.decrement 256).wf = false ∧ (Instr.testEquals 256 0).wf = false ∧ (Instr.testEquals 0 256).wf = false ∧
    (Instr.push 256).wf = false ∧ (Instr.pop 256).wf = false ∧ (Instr.echo (.reg 256)).wf = false ∧
    (Instr.move (.reg 256) (.num 0)).wf = false ∧ (Instr.move (.reg 0) (.loc (.reg 256))).wf = false ∧
    (Instr.move (.ind 256 0) (.num 0)).wf = false ∧ (Instr.echo (.ind 256 0)).wf = false := by decide

theorem test_wf_refuses_offsets_outside_16_bits :
    (Instr.echo (.ind 0 32768)).wf = false ∧ (Instr.echo (.ind 0 (-32769))).wf = false ∧
    (Instr.move (.ind 0 32768) (.num 0)).wf = false ∧
    (Instr.move (.reg 0) (.loc (.ind 0 (-32769)))).wf = false := by decide

theorem test_wf_accepts_the_bounds :
    (Instr.add 255 0 255).wf = true ∧ (Instr.move (.ind 255 (-32768)) (.loc (.ind 0 32767))).wf = true ∧
    (Instr.jump (-1)).wf = true := by decide

/-! The descriptor codec: the table V-CODEC. -/

theorem test_descriptor_fields :
    (descIndex 0x01000107#32 = 7 ∧ descIndirect 0x01000107#32 = true ∧ descOffset 0x01000107#32 = 1) ∧
    (descIndex 0x01FFFF05#32 = 5 ∧ descIndirect 0x01FFFF05#32 = true ∧ descOffset 0x01FFFF05#32 = -1) ∧
    (descIndex 0x01800000#32 = 0 ∧ descOffset 0x01800000#32 = -32768) ∧
    (descIndex 0x017FFFFF#32 = 255 ∧ descOffset 0x017FFFFF#32 = 32767) ∧
    (descIndex 0x0000FF0A#32 = 10 ∧ descIndirect 0x0000FF0A#32 = false ∧ descOffset 0x0000FF0A#32 = 255) ∧
    (descIndex 0xFE000003#32 = 3 ∧ descIndirect 0xFE000003#32 = false) ∧
    (descIndex 0xFFFFFFFF#32 = 255 ∧ descIndirect 0xFFFFFFFF#32 = true ∧ descOffset 0xFFFFFFFF#32 = -1) := by
  decide

theorem test_descriptor_words :
    descWord 0 true 5 = 0x01000500#32 ∧ descWord 7 true 1 = 0x01000107#32 ∧ descWord 5 true (-3) = 0x01FFFD05#32 ∧
    descWord 2 true (-1) = 0x01FFFF02#32 ∧ descWord 1 true 32767 = 0x017FFF01#32 := by decide

/-! Decoding: for every constructor a record written out from 30_encoding.md R103 to R105. -/

theorem test_decode_every_instruction :
    gives (decodeRecord [0x00000000#32, 0x00000001#32, 0x00000002#32, 0x00000003#32]) (.add 1 2 3, []) ∧
    gives (decodeRecord [0x00000001#32, 0x00000002#32, 0x00000004#32, 0x00000005#32]) (.mul 2 4 5, []) ∧
    gives (decodeRecord [0x00000002#32, 0x00000001#32]) (.decrement 1, []) ∧
    gives (decodeRecord [0x00000003#32, 0x00000001#32, 0x00000002#32]) (.testEquals 1 2, []) ∧
    gives (decodeRecord [0x00000004#32, 0x00000002#32]) (.jump 2, []) ∧
    gives (decodeRecord [0x00000005#32, 0x00000007#32]) (.jumpIfTrue 7, []) ∧
    gives (decodeRecord [0x00000006#32, 0xFFFFFFFE#32]) (.call (-2), []) ∧
    gives (decodeRecord [0x00000007#32]) (.ret, []) ∧
    gives (decodeRecord [0x00000008#32, 0x00000001#32]) (.push 1, []) ∧
    gives (decodeRecord [0x00000009#32, 0x00000003#32]) (.pop 3, []) ∧
    gives (decodeRecord [0x0000000A#32, 0x00000004#32, 0x01000207#32]) (.move (.reg 4) (.loc (.ind 7 2)), []) ∧
    gives (decodeRecord [0x0000001A#32, 0x00000007#32, 0x0000001F#32]) (.move (.reg 7) (.num 31), []) ∧
    gives (decodeRecord [0x0000000B#32, 0x01001E05#32]) (.echo (.ind 5 30), []) ∧
    gives (decodeRecord [0x0000000C#32, 0x0000000A#32]) (.iinput 10, []) ∧
    gives (decodeRecord [0x0000000D#32]) (.halt, []) := by decide

/-- The rows of V-LOAD that fail at load. -/
theorem test_load_refusals :
    raises (validate .add [.descriptor 1, .descriptor 2]) (.arity .add 3) ∧
    raises (validate .add [.descriptor 1, .descriptor 0x01000002, .descriptor 3])
      (.argument .add 1 .nonIndirectDescriptor) ∧
    raises (validate .jump [.descriptor 7]) (.argument .jump 0 .number) ∧
    raises (validate .move [.number 1, .number 5]) (.argument .move 0 .descriptor) ∧
    raises (validate .move [.descriptor 1, .text ['x']]) (.argument .move 1 .descriptorOrNumber) ∧
    raises (validate .echo [.number 1]) (.argument .echo 0 .descriptor) ∧
    raises (decodeRecord [0x0000000E#32]) (.reservedOpcode 0x0E) ∧
    raises (decodeRecord [0x0000000F#32]) (.reservedOpcode 0x0F) ∧
    raises (decodeRecord [0x00000014#32, 7#32]) (.kindBit 0x14) ∧
    raises (decodeRecord [0x0000002D#32]) (.reservedBits 0x2D) := by decide

/-- A table word: the header in the low bits, the operand words above it. -/
theorem test_table_words :
    decodeTableWord 32 0x0D = some .halt ∧ decodeTableWord 32 0x00 = some (.add 0 0 0) ∧
    decodeTableWord 96 0x01000107010005000000000A = some (.move (.ind 0 5) (.loc (.ind 7 1))) ∧
    decodeTableWord 64 0xFFFFFFFF00000004 = some (.jump (-1)) ∧ decodeTableWord 32 0x0E = none := by decide

/-! One step on a small state. `MEM_SIZE = 16`, `REG_COUNT = 8`, `SP_INDEX = 7`, the recommended PARSE_INT. -/

/-- A running state with `pc`, registers and memory as given. -/
def small (pc : Nat) (x mem : Slots) : State :=
  { State.resetWith ⟨16, 8, 7, .recommended⟩ [] with pc := pc, x := x, mem := mem }

/-- The same, the host's next answer known. -/
def asked (a : Answer) : State := { small 4 [] [] with script := [a] }

theorem test_add_wraps :
    reaches (exec (.add 1 2 3) (small 1 [(2, .int 2147483647), (3, .int 1)] []))
      (small 1 [(1, .int (-2147483648)), (2, .int 2147483647), (3, .int 1)] []) := by decide

theorem test_add_reads_both_sources_first :
    reaches (exec (.add 1 1 1) (small 1 [(1, .int 21)] [])) (small 1 [(1, .int 42)] []) := by decide

theorem test_mul_keeps_the_low_word :
    reaches (exec (.mul 1 2 3) (small 1 [(2, .int 46341), (3, .int 46341)] []))
      (small 1 [(1, .int (-2147479015)), (2, .int 46341), (3, .int 46341)] []) := by decide

theorem test_mul_type_error :
    reaches (exec (.mul 1 2 3) (small 1 [(2, .int 1), (3, .text ['a'])] []))
      { small 1 [(2, .int 1), (3, .text ['a'])] [] with
        run := .faulted ⟨0, .typeMismatch (.arg .mul 2) .text⟩ } := by decide

theorem test_decrement_wraps :
    reaches (exec (.decrement 4) (small 1 [(4, .int (-2147483648))] []))
      (small 1 [(4, .int 2147483647)] []) := by decide

theorem test_testEquals_mixed_types :
    reaches (exec (.testEquals 1 2) { small 1 [(1, .int 5), (2, .text ['5'])] [] with flag := true })
      (small 1 [(1, .int 5), (2, .text ['5'])] []) := by decide

theorem test_testEquals_texts :
    reaches (exec (.testEquals 1 2) (small 1 [(1, .text ['a', 'b']), (2, .text ['a', 'b'])] []))
      { small 1 [(1, .text ['a', 'b']), (2, .text ['a', 'b'])] [] with flag := true } := by decide

theorem test_jump_past_the_memory : reaches (exec (.jump 16) (small 4 [] [])) (small 16 [] []) := by decide

theorem test_jump_negative :
    reaches (exec (.jump (-1)) (small 4 [] []))
      { small 4 [] [] with run := .faulted ⟨3, .invalidArgument (-1)⟩ } := by decide

theorem test_jumpIfTrue_taken :
    reaches (exec (.jumpIfTrue 2) { small 10 [] [] with flag := true })
      { small 2 [] [] with flag := true } := by decide

theorem test_jumpIfTrue_not_taken : reaches (exec (.jumpIfTrue (-1)) (small 10 [] [])) (small 10 [] []) := by decide

theorem test_call :
    reaches (exec (.call 12) (small 6 [(7, .int 15)] [])) (small 12 [(7, .int 14)] [(15, .int 6)]) := by decide

/-- P6: the store and the decrement stay. -/
theorem test_call_negative :
    reaches (exec (.call (-2)) (small 2 [(7, .int 3)] []))
      { small 2 [(7, .int 2)] [(3, .int 2)] with run := .faulted ⟨1, .invalidArgument (-2)⟩ } := by decide

theorem test_ret :
    reaches (exec .ret (small 9 [(7, .int (-1))] [(0, .int 3)])) (small 3 [(7, .int 0)] [(0, .int 3)]) := by decide

theorem test_ret_target_is_no_integer :
    reaches (exec .ret (small 9 [(7, .int 14)] [(15, .text ['x'])])) { small 9 [(7, .int 14)] [(15, .text ['x'])] with
        run := .faulted ⟨8, .typeMismatch .retTarget .text⟩ } := by decide

theorem test_push_stack_register :
    reaches (exec (.push 7) (small 1 [(7, .int 10)] [])) (small 1 [(7, .int 9)] [(10, .int 10)]) := by decide

theorem test_push_outside_the_memory :
    reaches (exec (.push 0) (small 1 [(7, .int (-1))] []))
      { small 1 [(7, .int (-1))] [] with run := .faulted ⟨0, .outOfRange .mem (-1)⟩ } := by decide

theorem test_pop_stack_register :
    reaches (exec (.pop 7) (small 1 [(7, .int 9)] [(10, .text ['a'])]))
      (small 1 [(7, .int 10)] [(10, .text ['a'])]) := by decide

theorem test_pop_address_is_exact :
    reaches (exec (.pop 0) (small 1 [(7, .int 2147483647)] []))
      { small 1 [(7, .int 2147483647)] [] with run := .faulted ⟨0, .outOfRange .mem 2147483648⟩ } := by decide

/-- W2. -/
theorem test_move_indirect_to_indirect :
    reaches (exec (.move (.ind 0 5) (.loc (.ind 7 1))) (small 1 [(0, .int 0), (7, .int 9)] [(10, .text ['X'])]))
      (small 1 [(0, .int 0), (7, .int 9)] [(5, .text ['X']), (10, .text ['X'])]) := by decide

theorem test_move_address_is_exact :
    reaches (exec (.move (.reg 1) (.loc (.ind 1 32767))) (small 1 [(1, .int 2147483647)] []))
      { small 1 [(1, .int 2147483647)] [] with run := .faulted ⟨0, .outOfRange .mem 2147516414⟩ } := by decide

theorem test_echo_integer :
    reaches (exec (.echo (.reg 3)) (small 1 [(3, .int (-2147483648))] [])) { small 1 [(3, .int (-2147483648))] [] with
        out := [['-', '2', '1', '4', '7', '4', '8', '3', '6', '4', '8']] } := by decide

theorem test_echo_indirect_text :
    reaches (exec (.echo (.ind 0 11)) (small 1 [(0, .int 0)] [(11, .text ['b', 'a', 'd'])]))
      { small 1 [(0, .int 0)] [(11, .text ['b', 'a', 'd'])] with out := [['b', 'a', 'd']] } := by decide

theorem test_iinput_stores :
    reaches (exec (.iinput 10) (asked (.line ['-', '7'])))
      { asked (.line ['-', '7']) with mem := [(10, .int (-7))], flag := true, inPos := 1 } := by decide

theorem test_iinput_outside_the_memory :
    reaches (exec (.iinput (-1)) (asked (.line ['5'])))
      { asked (.line ['5']) with inPos := 1, run := .faulted ⟨3, .outOfRange .mem (-1)⟩ } := by decide

theorem test_recommended_parser :
    parseInt .recommended ['4', '2'] = some 42 ∧ parseInt .recommended ['4', 'x', '2'] = none ∧
    parseInt .recommended [' ', '7'] = none ∧
    parseInt .recommended ['2', '1', '4', '7', '4', '8', '3', '6', '4', '8'] = none ∧
    parseInt .recommended ['+', '5'] = some 5 ∧ parseInt .recommended ['-'] = none ∧ parseInt .recommended [] = none := by
  decide

/-- W4. -/
theorem test_halt :
    reaches (step (small 0 [] [(0, .insn .halt)])) { small 1 [] [(0, .insn .halt)] with run := .halted } := by decide

/-! The loop, the load interface and reset. -/

theorem test_fetch_errors :
    reaches (step (small 3 [] [(3, .int 5)]))
      { small 3 [] [(3, .int 5)] with run := .faulted ⟨3, .typeMismatch .fetch .int⟩ } ∧
    reaches (step (small 3 [] [])) { small 3 [] [] with run := .faulted ⟨3, .typeMismatch .fetch .empty⟩ } ∧
    reaches (step (small 16 [] [])) { small 16 [] [] with run := .faulted ⟨16, .outOfRange .mem 16⟩ } := by decide

theorem test_placed_word_is_the_first_instruction :
    reaches (step (State.reset.withFetchWord 96 0x00000005000000010000001A))
      { State.reset with pc := 1, x := [(1, .int 5)], mem := [(0, .insn (.move (.reg 1) (.num 5)))] } ∧
    reaches (step (State.reset.withFetchWord 32 0x0000000D))
      { State.reset with pc := 1, run := .halted, mem := [(0, .insn .halt)] } := by decide

theorem test_boot :
    faults (boot 0 8 7 .unstated [] []) (.configurationError .memSize 0) ∧
    faults (boot 16 7 7 .unstated [] []) (.configurationError .regCount 7) ∧
    reaches (boot 16 8 7 .unstated [] [(0, .record [0x0D])]) { State.reset with mem := [(0, .insn .halt)] } ∧
    faults (boot 16 8 7 .unstated [] [(0, .built .jump [.descriptor 7])])
      (.argumentError (.argument .jump 0 .number)) := by decide

/-! Witnesses: for each statement with hypotheses a state and operands that meet them, one for each clause, at the bounds of
their ranges. -/

/-- Registers with `v` in register 1 and `sp` in the stack register. -/
def regs (v : Value) (sp : Word) : Slots := Slots.set [(7, .int sp)] 1 v

theorem witness_DescriptorFieldsRoundTrip :
    (255 ≤ 255 ∧ (-32768 : Int) ≤ -32768 ∧ (-32768 : Int) ≤ 32767) ∧
    (0 ≤ 255 ∧ (-32768 : Int) ≤ 32767 ∧ (32767 : Int) ≤ 32767) := by decide

theorem witness_DescriptorFormDiscardsIgnoredBits :
    (descIndirect 0x0000FF0A#32 = false ∧ descIndirect 0xFE00000A#32 = false ∧
      (0x0000FF0A#32).toNat % 2 ^ 8 = (0xFE00000A#32).toNat % 2 ^ 8) ∧
    (descIndirect 0x01800107#32 = true ∧ descIndirect 0xFF800107#32 = true ∧
      (0x01800107#32).toNat % 2 ^ 24 = (0xFF800107#32).toNat % 2 ^ 24) := by decide

theorem witness_ValidationFollowsTheSignatureTable :
    [Arg.descriptor 1].length ≠ Opcode.move.arity ∧
    ([Arg.descriptor 1, .text ['x']].length = Opcode.move.arity ∧
      Opcode.move.signature[1]? = some .descriptorOrNumber ∧
      SignatureCell.descriptorOrNumber.complaint (.text ['x']) = some .descriptorOrNumber ∧
      SignatureCell.anyDescriptor.complaint (.descriptor 1) = none) ∧
    ([Arg.descriptor 0x01000001, .number 5].length = Opcode.move.arity ∧
      SignatureCell.anyDescriptor.complaint (.descriptor 0x01000001) = none ∧
      SignatureCell.descriptorOrNumber.complaint (.number 5) = none) := by decide

theorem witness_DecodeOfEncodeIsTheInstruction :
    (Instr.add 255 0 255).wf = true ∧ (Instr.move (.ind 255 (-32768)) (.loc (.ind 0 32767))).wf = true ∧
    (Instr.move (.reg 255) (.num (-1))).wf = true := by decide

theorem witness_DecodedRecordLengthAndForm :
    gives (decodeRecord (0x05#32 :: [7#32, 9#32])) (.jumpIfTrue 7, [9#32]) := by decide

theorem witness_ReservedHeadersNeverDecode :
    (0x20#32).toNat / 2 ^ 5 ≠ 0 ∧ (0x80000000#32).toNat / 2 ^ 5 ≠ 0 ∧ (14#32).toNat % 16 = 14 ∧
    (15#32).toNat % 16 = 15 ∧ ((0x10#32).toNat / 2 ^ 4 % 2 = 1 ∧ (0x10#32).toNat % 16 ≠ 10) := by decide

theorem witness_RecordsDecodeForEveryOperandWord :
    descIndirect 0xFEFFFFFF#32 = false ∧ descIndirect 0#32 = false ∧ descIndirect 0x000000FF#32 = false := by decide

theorem witness_ReadsReturnTheLatestWrite :
    writeReg 7 (.int 1) (small 0 [] []) = .ok (small 0 [(7, .int 1)] []) ∧
    memWrite 15 .empty (small 0 [] [(15, .int 1)]) = .ok (small 0 [] []) := ⟨rfl, rfl⟩

theorem witness_BoundsAreCheckedOnEveryAccess :
    (small 0 [] []).cfg.regCount ≤ 8 ∧ 7 < (small 0 [] []).cfg.regCount ∧
    ((-1 : Int) < 0 ∨ ((small 0 [] []).cfg.memSize : Int) ≤ -1) ∧
    ((16 : Int) < 0 ∨ ((small 0 [] []).cfg.memSize : Int) ≤ 16) ∧
    (0 ≤ (15 : Int) ∧ (15 : Int) < (small 0 [] []).cfg.memSize) := by decide

theorem witness_CanonicalSlotsAreSetByTheirReads :
    Slots.wf [(0, .int 0), (2147483646, .text [])] ∧
    ∀ a, Slots.get [(0, .int 0), (2147483646, .text [])] a = Slots.get [(0, .int 0), (2147483646, .text [])] a :=
  ⟨by decide, fun _ => rfl⟩

theorem witness_StepExecutesTheFetchedInstruction :
    (small 15 [] [(15, .insn .ret)]).run = .running ∧
    memRead 15 (small 15 [] [(15, .insn .ret)]) = .ok (.insn .ret) := ⟨rfl, rfl⟩

theorem witness_FetchErrorsEndTheRun :
    (small 16 [] []).run = .running ∧ (small 16 [] []).cfg.memSize ≤ (small 16 [] []).pc ∧
    memRead 15 (small 15 [] []) = .ok .empty ∧ Value.empty.tag ≠ .insn := ⟨rfl, by decide, rfl, by decide⟩

theorem witness_EndedRunsNeverChange :
    { small 0 [] [] with run := .halted }.run ≠ .running ∧
    { small 0 [] [] with run := .faulted ⟨0, .invalidArgument (-1)⟩ }.run ≠ .running := by decide

theorem witness_OnlyHaltReachesHalted :
    (small 15 [] [(15, .insn .halt)]).run = .running ∧
    step (small 15 [] [(15, .insn .halt)]) = .next { small 16 [] [(15, .insn .halt)] with run := .halted } ∧
    step (small 15 [] []) = .next { small 15 [] [] with run := .faulted ⟨15, .typeMismatch .fetch .empty⟩ } :=
  ⟨rfl, rfl, rfl⟩

theorem witness_PlacedTableWordRunsNext :
    (small 15 [] []).pc < (small 15 [] []).cfg.memSize ∧ decodeTableWord 32 13 = some .halt := by decide

theorem witness_StoresAreSeenByTheNextFetch :
    let s := small 14 [(0, .int 16), (1, .insn .halt)] [(14, .insn (.move (.ind 0 (-1)) (.loc (.reg 1))))]
    let u := small 14 [(0, .int 16)] [(14, .insn (.move (.ind 0 (-1)) (.loc (.reg 1))))]
    s.run = .running ∧ memRead s.pc s = .ok (.insn (.move (.ind 0 (-1)) (.loc (.reg 1)))) ∧
    readReg 0 s = .ok (.int 16) ∧ (16 : Word).toInt + (-1) = s.pc + 1 ∧ s.pc + 1 < s.cfg.memSize ∧
    readReg 1 s = .ok (.insn .halt) ∧ readReg 1 u = .ok .empty ∧ Value.empty.tag ≠ .insn :=
  ⟨rfl, rfl, rfl, rfl, by decide, rfl, rfl, by decide⟩

theorem witness_ResetValues :
    7 < (Config.initial).regCount ∧ 15 < (Config.initial).memSize := by decide

theorem witness_ResetMeetsTheInvariant :
    (Config.mk 1 1 0 .unstated).valid ∧ (Config.mk 2147483647 2147483647 2147483646 .recommended).valid := by decide

theorem witness_StepKeepsTheInvariant :
    (small 15 [] [(15, .insn .ret)]).Inv ∧
    step (small 15 [] [(15, .insn .ret)]) =
      .next { small 16 [] [(15, .insn .ret)] with run := .faulted ⟨15, .typeMismatch (.sp .ret) .empty⟩ } ∧
    (small 15 [] [(15, .insn (.jump 2147483647))]).Inv ∧
    step (small 15 [] [(15, .insn (.jump 2147483647))]) =
      .next (small 2147483647 [] [(15, .insn (.jump 2147483647))]) := ⟨by decide, rfl, by decide, rfl⟩

theorem witness_BootChecksTheConfiguration :
    (((0 : Int) < 1 ∨ 2147483647 < (0 : Int)) ∧ ((7 : Nat) : Int) + 1 ≤ 8 ∧ (8 : Int) ≤ 2147483647) ∧
    ((1 : Int) ≤ 1 ∧ (1 : Int) ≤ 2147483647 ∧ ((7 : Int) < (7 : Nat) + 1 ∨ 2147483647 < (7 : Int))) ∧
    (((2147483648 : Int) < 1 ∨ 2147483647 < (2147483648 : Int)) ∧
      ((2147483648 : Int) < (7 : Nat) + 1 ∨ 2147483647 < (2147483648 : Int))) ∧
    ((1 : Int) ≤ 2147483647 ∧ (2147483647 : Int) ≤ 2147483647 ∧ ((7 : Nat) : Int) + 1 ≤ 8 ∧
      (8 : Int) ≤ 2147483647) := by decide

theorem witness_BootedStatesMeetTheInvariant :
    boot 2 1 0 .unstated [] [(1, .record [0x0D])] =
      .next { State.resetWith ⟨2, 1, 0, .unstated⟩ [] with mem := [(1, .insn .halt)] } := rfl

theorem witness_BootLeavesTheResetState :
    boot 2 1 0 .unstated [] [(1, .int 5)] =
      .next { State.resetWith ⟨2, 1, 0, .unstated⟩ [] with mem := [(1, .int 5)] } ∧
    (∀ q ∈ [(1, ImageItem.int 5)], q.1 ≠ 0) ∧ ([(1, ImageItem.int 5)].map Prod.fst).Nodup :=
  ⟨rfl, by decide, by decide⟩

theorem witness_MalformedInstructionsAbortTheLoad :
    (3, ImageItem.record [0x0E]) ∈ [(0, ImageItem.record [0x0D]), (3, .record [0x0E])] ∧
    (ImageItem.record [0x0E]).value = .error (.reservedOpcode 0x0E) := ⟨by simp, rfl⟩

theorem witness_AddResultAndErrors :
    let s := small 1 [(1, .int 2147483647), (2, .int 1)] []
    (readReg 1 s = .ok (.int 2147483647) ∧ readReg 2 s = .ok (.int 1) ∧ 7 < s.cfg.regCount) ∧ s.pc = 0 + 1 ∧
    IntRaises s 0 (.arg .add 1) (.typeMismatch (.arg .add 1) .empty) ∧
    IntRaises s 8 (.arg .add 2) (.outOfRange .reg 8) ∧ s.cfg.regCount ≤ 8 :=
  ⟨⟨rfl, rfl, by decide⟩, rfl, .inr ⟨.empty, rfl, by decide, rfl⟩, .inl ⟨by decide, rfl⟩, by decide⟩

theorem witness_MulResultAndErrors :
    let s := small 1 [(1, .int 2147483647), (2, .int 2)] []
    (readReg 1 s = .ok (.int 2147483647) ∧ readReg 2 s = .ok (.int 2) ∧ 7 < s.cfg.regCount) ∧ s.pc = 0 + 1 ∧
    IntRaises s 8 (.arg .mul 1) (.outOfRange .reg 8) ∧
    IntRaises s 0 (.arg .mul 2) (.typeMismatch (.arg .mul 2) .empty) ∧ s.cfg.regCount ≤ 8 :=
  ⟨⟨rfl, rfl, by decide⟩, rfl, .inl ⟨by decide, rfl⟩, .inr ⟨.empty, rfl, by decide, rfl⟩, by decide⟩

theorem witness_DecrementResultAndErrors :
    let s := small 1 [(7, .int (-2147483648))] []
    readReg 7 s = .ok (.int (-2147483648)) ∧ s.pc = 0 + 1 ∧
    IntRaises s 8 (.arg .decrement 0) (.outOfRange .reg 8) ∧
    IntRaises s 0 (.arg .decrement 0) (.typeMismatch (.arg .decrement 0) .empty) :=
  ⟨rfl, rfl, .inl ⟨by decide, rfl⟩, .inr ⟨.empty, rfl, by decide, rfl⟩⟩

theorem witness_TestEqualsResultAndErrors :
    let s := small 1 [(1, .int 5), (2, .int 5), (3, .text ['5']), (4, .text [])] []
    (readReg 1 s = .ok (.int 5) ∧ readReg 2 s = .ok (.int 5)) ∧
    (readReg 3 s = .ok (.text ['5']) ∧ readReg 4 s = .ok (.text [])) ∧ (Value.int 5).tag ≠ (Value.text ['5']).tag ∧
    s.pc = 0 + 1 ∧ s.cfg.regCount ≤ 8 ∧ 7 < s.cfg.regCount :=
  ⟨⟨rfl, rfl⟩, ⟨rfl, rfl⟩, by decide, rfl, by decide, by decide⟩

theorem witness_JumpResultAndErrors :
    (0 : Word).toInt = (0 : Nat) ∧ (2147483647 : Word).toInt = (2147483647 : Nat) ∧ (small 1 [] []).pc = 0 + 1 ∧
    (-1 : Word).toInt < 0 := by decide

theorem witness_JumpIfTrueResultAndErrors :
    let s := { small 1 [] [] with flag := true }
    (small 1 [] []).flag = false ∧ s.flag = true ∧ (0 : Word).toInt = (0 : Nat) ∧ s.pc = 0 + 1 ∧
    (-1 : Word).toInt < 0 := by
  decide

theorem witness_CallResultAndErrors :
    let s := small 2147483647 [(7, .int 0)] []
    (s.pc = 2147483646 + 1 ∧ s.pc ≤ 2147483647) ∧
    (readReg s.cfg.spIndex s = .ok (.int 0) ∧ 0 ≤ (0 : Word).toInt ∧ (0 : Word).toInt < s.cfg.memSize) ∧
    ((0 : Word).toInt = (0 : Nat) ∧ (-1 : Word).toInt < 0) ∧
    IntRaises (small 1 [] []) 7 (.sp .call) (.typeMismatch (.sp .call) .empty) ∧
    (readReg 7 (small 1 [(7, .int 16)] []) = .ok (.int 16) ∧
      ¬(0 ≤ (16 : Word).toInt ∧ (16 : Word).toInt < (small 1 [(7, .int 16)] []).cfg.memSize)) :=
  ⟨⟨rfl, by decide⟩, ⟨rfl, by decide, by decide⟩, by decide, .inr ⟨.empty, rfl, by decide, rfl⟩, rfl, by decide⟩

theorem witness_RetResultAndErrors :
    let s := small 1 [(7, .int (-1))] [(0, .int 2147483647)]
    let u := small 1 [(7, .int 15)] []
    let w := small 1 [(7, .int 14)] [(15, .int (-1))]
    s.cfg.valid ∧
    (readReg s.cfg.spIndex s = .ok (.int (-1)) ∧ memRead ((-1 : Word).toInt + 1) s = .ok (.int 2147483647) ∧
      (2147483647 : Word).toInt = (2147483647 : Nat)) ∧
    s.pc = 0 + 1 ∧ IntRaises (small 1 [] []) 7 (.sp .ret) (.typeMismatch (.sp .ret) .empty) ∧
    (readReg 7 u = .ok (.int 15) ∧ ¬(0 ≤ (15 : Word).toInt + 1 ∧ (15 : Word).toInt + 1 < u.cfg.memSize)) ∧
    (memRead ((14 : Word).toInt + 1) (small 1 [(7, .int 14)] []) = .ok .empty ∧ Value.empty.tag ≠ .int) ∧
    (readReg 7 w = .ok (.int 14) ∧ memRead ((14 : Word).toInt + 1) w = .ok (.int (-1)) ∧ (-1 : Word).toInt < 0) :=
  ⟨by decide, ⟨rfl, rfl, rfl⟩, rfl, .inr ⟨.empty, rfl, by decide, rfl⟩, ⟨rfl, by decide⟩, ⟨rfl, by decide⟩,
    rfl, rfl, by decide⟩

theorem witness_TargetsPastTheMemoryFaultAtTheFetch :
    let s := small 15 [] [(15, .insn (.jump 16))]
    s.run = .running ∧ memRead s.pc s = .ok (.insn (.jump 16)) ∧ (16 : Word).toInt = (16 : Nat) ∧ s.cfg.memSize ≤ 16 :=
  ⟨rfl, rfl, rfl, by decide⟩

theorem witness_RetUndoesCall :
    let s := small 1 [(7, .int 0)] []
    let s1 := small 9 [(7, .int (-1))] [(0, .int 1)]
    s.cfg.valid ∧ s.pc ≤ 2147483647 ∧ 0 ≤ (9 : Word).toInt ∧ readReg s.cfg.spIndex s = .ok (.int 0) ∧
    0 ≤ (0 : Word).toInt ∧ (0 : Word).toInt < s.cfg.memSize ∧ exec (.call 9) s = .next s1 ∧ s1.cfg = s.cfg :=
  ⟨by decide, by decide, by decide, rfl, by decide, by decide, rfl, rfl⟩

theorem witness_PushResultAndErrors :
    let s := small 1 (regs (.text ['X']) 15) []
    (readReg s.cfg.spIndex s = .ok (.int 15) ∧ readReg 1 s = .ok (.text ['X']) ∧ 0 ≤ (15 : Word).toInt ∧
      (15 : Word).toInt < s.cfg.memSize) ∧
    s.pc = 0 + 1 ∧ IntRaises (small 1 [] []) 7 (.sp .push) (.typeMismatch (.sp .push) .empty) ∧ s.cfg.regCount ≤ 8 ∧
    (readReg 7 (small 1 [(7, .int (-1))] []) = .ok (.int (-1)) ∧ 7 < s.cfg.regCount ∧
      ¬(0 ≤ (-1 : Word).toInt ∧ (-1 : Word).toInt < s.cfg.memSize)) :=
  ⟨⟨rfl, rfl, by decide, by decide⟩, rfl, .inr ⟨.empty, rfl, by decide, rfl⟩, by decide, rfl, by decide, by decide⟩

theorem witness_PopResultAndErrors :
    let s := small 1 [(7, .int 14)] [(15, .text ['a'])]
    s.cfg.valid ∧
    (readReg s.cfg.spIndex s = .ok (.int 14) ∧ memRead ((14 : Word).toInt + 1) s = .ok (.text ['a']) ∧
      7 < s.cfg.regCount ∧ 7 = s.cfg.spIndex) ∧
    s.pc = 0 + 1 ∧ IntRaises (small 1 [] []) 7 (.sp .pop) (.typeMismatch (.sp .pop) .empty) ∧
    (readReg 7 (small 1 [(7, .int 2147483647)] []) = .ok (.int 2147483647) ∧
      ¬(0 ≤ (2147483647 : Word).toInt + 1 ∧ (2147483647 : Word).toInt + 1 < s.cfg.memSize)) ∧
    (0 ≤ (14 : Word).toInt + 1 ∧ (14 : Word).toInt + 1 < s.cfg.memSize ∧ s.cfg.regCount ≤ 8) :=
  ⟨by decide, ⟨rfl, rfl, by decide, rfl⟩, rfl, .inr ⟨.empty, rfl, by decide, rfl⟩, ⟨rfl, by decide⟩, by decide⟩

theorem witness_PopUndoesPush :
    let s := small 1 (regs (.text ['X']) 15) []
    1 ≠ s.cfg.spIndex ∧ readReg s.cfg.spIndex s = .ok (.int 15) ∧ readReg 1 s = .ok (.text ['X']) ∧
    0 ≤ (15 : Word).toInt ∧ (15 : Word).toInt < s.cfg.memSize :=
  ⟨by decide, rfl, rfl, by decide, by decide⟩

theorem witness_StackPointerNeverWraps :
    let s := small 1 [(7, .int 0)] []
    let u := small 1 [(7, .int 14)] [(15, .int 6)]
    s.cfg.valid ∧ readReg 7 s = .ok (.int 0) ∧ readReg 7 u = .ok (.int 14) ∧
    exec (.push 7) s = .next (small 1 [(7, .int (-1))] [(0, .int 0)]) ∧
    exec (.call 3) s = .next (small 3 [(7, .int (-1))] [(0, .int 1)]) ∧
    exec (.pop 7) u = .next (small 1 [(7, .int 15)] [(15, .int 6)]) ∧
    exec .ret u = .next (small 6 [(7, .int 15)] [(15, .int 6)]) ∧
    readReg 7 (small 1 [(7, .int (-1))] [(0, .int 0)]) = .ok (.int (-1)) :=
  ⟨by decide, rfl, rfl, rfl, rfl, rfl, rfl, rfl⟩

theorem witness_MoveResultAndErrors :
    let s := small 1 [(1, .int 15)] [(15, .insn .halt)]
    SrcHolds s (.loc (.ind 1 0)) (.insn .halt) ∧ SrcHolds s (.num (-5)) (.int (-5)) ∧ 7 < s.cfg.regCount ∧
    (readReg 1 s = .ok (.int 15) ∧ 0 ≤ (15 : Word).toInt + (-15) ∧ (15 : Word).toInt + 0 < s.cfg.memSize) ∧
    s.pc = 0 + 1 ∧ LocRaises s (.ind 1 1) (.base .move 1) (.outOfRange .mem 16) ∧
    LocRaises s (.ind 0 0) (.base .move 0) (.typeMismatch (.base .move 0) .empty) ∧
    LocRaises s (.reg 8) (.base .move 0) (.outOfRange .reg 8) :=
  ⟨⟨15, rfl, rfl⟩, rfl, by decide, ⟨rfl, by decide, by decide⟩, rfl, .inr (.inr ⟨15, rfl, by decide, rfl⟩),
    .inr (.inl ⟨.empty, rfl, by decide, rfl⟩), by decide, rfl⟩

theorem witness_EchoResultAndErrors :
    let s := small 1 [(1, .int (-2147483648)), (2, .text [])] []
    LocHolds s (.reg 1) (.int (-2147483648)) ∧ LocHolds s (.reg 2) (.text []) ∧ LocHolds s (.reg 3) .empty ∧
    s.pc = 0 + 1 ∧ LocRaises s (.ind 1 0) (.base .echo 0) (.outOfRange .mem (-2147483648)) ∧
    LocRaises s (.ind 2 0) (.base .echo 0) (.typeMismatch (.base .echo 0) .text) :=
  ⟨rfl, rfl, rfl, rfl, .inr (.inr ⟨-2147483648, rfl, by decide, rfl⟩), .inr (.inl ⟨.text [], rfl, by decide, rfl⟩)⟩

theorem witness_OpenResultsAreDrawn :
    let s := small 1 [(1, .insn .halt), (2, .insn .ret)] []
    (readReg 0 s = .ok .empty ∧ readReg 7 s = .ok .empty) ∧
    (readReg 1 s = .ok (.insn .halt) ∧ readReg 2 s = .ok (.insn .ret)) ∧
    LocHolds s (.reg 0) .empty ∧ LocHolds s (.reg 1) (.insn .halt) := ⟨⟨rfl, rfl⟩, ⟨rfl, rfl⟩, rfl, rfl⟩

theorem witness_IInputResultAndErrors :
    let l := asked (.line ['4', '2'])
    (asked .fail).nextAnswer = .fail ∧ l.nextAnswer = .line ['4', '2'] ∧
    parseInt (asked (.line ['x'])).cfg.parser ['x'] = none ∧ parseInt l.cfg.parser ['4', '2'] = some 42 ∧
    (0 ≤ (0 : Word).toInt ∧ (15 : Word).toInt < l.cfg.memSize) ∧ l.pc = 3 + 1 ∧
    ¬(0 ≤ (-1 : Word).toInt ∧ (-1 : Word).toInt < l.cfg.memSize) ∧
    ¬(0 ≤ (16 : Word).toInt ∧ (16 : Word).toInt < l.cfg.memSize) := by decide

theorem witness_HaltResult :
    (small 15 [] [(15, .insn .halt)]).run = .running ∧
    memRead 15 (small 15 [] [(15, .insn .halt)]) = .ok (.insn .halt) := ⟨rfl, rfl⟩

theorem witness_RegistersOutsideTheDestinationsKeep :
    let s := small 1 [(7, .int 14)] [(15, .text ['a'])]
    exec (.pop 0) s = .next (small 1 [(0, .text ['a']), (7, .int 15)] [(15, .text ['a'])]) ∧ 1 ∉ destRegs s (.pop 0) :=
  ⟨rfl, by decide⟩

theorem witness_MemoryOutsideTheStoreKeeps :
    let s := small 1 [(7, .int 14)] []
    exec (.push 7) s = .next (small 1 [(7, .int 13)] [(14, .int 14)]) ∧ storeAddr s (.push 7) ≠ some 15 ∧
    exec (.jump 3) s = .next (small 3 [(7, .int 14)] []) ∧ storeAddr s (.jump 3) ≠ some 14 :=
  ⟨rfl, by decide, rfl, by decide⟩

theorem witness_OnlyTestEqualsAndIInputWriteTheFlag :
    exec (.decrement 4) (small 1 [(4, .int 1)] []) = .next (small 1 [(4, .int 0)] []) ∧
    (∀ j k, Instr.decrement 4 ≠ .testEquals j k) ∧ ∀ a, Instr.decrement 4 ≠ .iinput a :=
  ⟨rfl, fun _ _ => by simp, fun _ => by simp⟩

theorem witness_OnlyJumpIfTrueReadsTheFlag :
    let s := small 1 [(1, .int 5), (2, .int 5)] []
    let t := { s with flag := true }
    (exec (.testEquals 1 2) s = .next t ∧ (∀ w, Instr.testEquals 1 2 ≠ .jumpIfTrue w) ∧ s.run = .running ∧
      (Instr.testEquals 1 2).setsFlag = true ∧ t.run = .running) ∧
    (exec (.testEquals 1 8) s = .next { s with run := .faulted ⟨0, .outOfRange .reg 8⟩ } ∧
      ∀ w, Instr.testEquals 1 8 ≠ .jumpIfTrue w) ∧
    exec .halt s = .next { s with run := .halted } ∧ Instr.halt.setsFlag = false :=
  ⟨⟨rfl, fun _ => by simp, rfl, rfl, rfl⟩, ⟨rfl, fun _ => by simp⟩, rfl, rfl⟩

theorem witness_OnlyTransfersSetThePc :
    exec (.jump 2147483647) (small 1 [] []) = .next (small 2147483647 [] []) ∧
    (small 2147483647 [] []).pc ≠ (small 1 [] []).pc := ⟨rfl, by decide⟩

theorem witness_PortsAndConfigurationKeep :
    exec (.iinput 0) (asked .fail) = .next { asked .fail with inPos := 1 } ∧
    (∀ d, Instr.iinput 0 ≠ .echo d) ∧ (∀ j k, Instr.iinput 0 ≠ .testEquals j k) ∧
    exec .halt (small 1 [] []) = .next { small 1 [] [] with run := .halted } ∧ ∀ a, Instr.halt ≠ .iinput a :=
  ⟨rfl, fun _ => by simp, fun _ _ => by simp, rfl, fun _ => by simp⟩

theorem witness_OutputIsAppendedAndNeverRead :
    exec (.echo (.reg 1)) (small 1 [(1, .text ['a'])] []) =
      .next { small 1 [(1, .text ['a'])] [] with out := [['a']] } ∧
    exec (.jump 3) (small 1 [] []) = .next (small 3 [] []) ∧ ∀ d, Instr.jump 3 ≠ .echo d :=
  ⟨rfl, rfl, fun _ => by simp⟩

theorem witness_TextsAndHandlesAreOnlyCopied :
    let s := small 0 (regs (.text ['X']) 15) [(0, .insn (.push 1))]
    let t := small 1 (regs (.text ['X']) 14) [(0, .insn (.push 1)), (15, .text ['X'])]
    step s = .next t ∧ ((Value.text ['X']).tag = .text ∨ (Value.text ['X']).tag = .insn) ∧ t.holds (.text ['X']) :=
  ⟨rfl, by decide, .inl ⟨15, rfl⟩⟩

theorem witness_ErrorsAreThoseOfTheTable :
    let s := small 1 [] []
    let t := { small 1 [] [] with run := .faulted ⟨0, .outOfRange .reg 8⟩ }
    s.pc = 0 + 1 ∧ s.run = .running ∧ exec (.add 8 8 8) s = .next t ∧ t.run = .faulted ⟨0, .outOfRange .reg 8⟩ ∧
    (Cause.outOfRange .reg 8 = .outOfRange .reg 8) := ⟨rfl, rfl, rfl, rfl, rfl⟩

end Sys2Proof.Tests
end

/-! PROOFS. The family 00_scope.md: reads after writes (R21, R22, R74), and the output stream (R10). -/

namespace Sys2Proof.Machine

open Sys2Proof

/-! Reads after writes. -/

theorem reads_after_writeReg {i : Nat} {v : Value} {s t : State} (h : writeReg i v s = .ok t) :
    readReg i t = .ok v ∧ (∀ j, j ≠ i → readReg j t = readReg j s) ∧ ∀ a, memRead a t = memRead a s := by
  obtain ⟨hi, rfl⟩ := writeReg_ok_iff.1 h
  exact ⟨by simp [readReg_setReg, hi], fun j hj => by simp [readReg_setReg, hj],
    memRead_congr (State.setReg_cfg s i v) (State.setReg_mem s i v)⟩

theorem reads_after_memWrite {a : Int} {v : Value} {s t : State} (h : memWrite a v s = .ok t) :
    memRead a t = .ok v ∧ (∀ b, b ≠ a → memRead b t = memRead b s) ∧ ∀ j, readReg j t = readReg j s := by
  obtain ⟨ha, rfl⟩ := memWrite_ok_iff.1 h
  exact ⟨memRead_setSlot_self ha, fun b hb => memRead_setSlot_of_ne ha.1 hb,
    readReg_congr (State.setSlot_cfg s a.toNat v) (State.setSlot_x s a.toNat v)⟩

/-- Settles O10, from the read-after-write law of each index space. -/
theorem readsReturnTheLatestWrite : Obligations.ReadsReturnTheLatestWrite :=
  ⟨fun _ _ _ _ h => reads_after_writeReg h, fun _ _ _ _ h => reads_after_memWrite h⟩

/-! The output. A state with its output replaced: every operation but `emit` commutes with the replacement, and no
operation reads what is replaced. The `simp` lemmas move the replacement outwards. -/

/-- `s` with `o` in place of its output. -/
def State.withOut (s : State) (o : List Text) : State := { s with out := o }

section

variable (s : State) (o : List Text)

@[simp] theorem State.withOut_cfg : (s.withOut o).cfg = s.cfg := rfl
@[simp] theorem State.withOut_pc : (s.withOut o).pc = s.pc := rfl
@[simp] theorem State.withOut_flag : (s.withOut o).flag = s.flag := rfl
@[simp] theorem State.withOut_out : (s.withOut o).out = o := rfl
@[simp] theorem State.withOut_draws : (s.withOut o).draws = s.draws := rfl
@[simp] theorem State.withOut_instrAddr : (s.withOut o).instrAddr = s.instrAddr := rfl
@[simp] theorem State.withOut_nextAnswer : (s.withOut o).nextAnswer = s.nextAnswer := rfl
@[simp] theorem State.withOut_self : s.withOut s.out = s := rfl

@[simp] theorem State.setReg_withOut (i : Nat) (v : Value) :
    (s.withOut o).setReg i v = (s.setReg i v).withOut o := rfl
@[simp] theorem State.setSlot_withOut (a : Nat) (v : Value) :
    (s.withOut o).setSlot a v = (s.setSlot a v).withOut o := rfl
@[simp] theorem State.setPc_withOut (p : Nat) : (s.withOut o).setPc p = (s.setPc p).withOut o := rfl
@[simp] theorem State.setFlag_withOut (b : Bool) : (s.withOut o).setFlag b = (s.setFlag b).withOut o := rfl
@[simp] theorem State.setRun_withOut (r : RunState) : (s.withOut o).setRun r = (s.setRun r).withOut o := rfl
@[simp] theorem State.addDraws_withOut (n : Nat) : (s.withOut o).addDraws n = (s.addDraws n).withOut o := rfl
@[simp] theorem State.consumeAnswer_withOut : (s.withOut o).consumeAnswer = s.consumeAnswer.withOut o := rfl
@[simp] theorem State.raise_withOut (addr : Nat) (c : Cause) :
    (s.withOut o).raise addr c = (s.raise addr c).withOut o := rfl

/-- `emit` is the one operation that extends the output it is given. -/
@[simp] theorem State.emit_withOut (t : Text) : (s.withOut o).emit t = (s.emit t).withOut (o ++ [t]) := rfl

@[simp] theorem readReg_withOut (i : Nat) : readReg i (s.withOut o) = readReg i s := rfl
@[simp] theorem memRead_withOut (a : Int) : memRead a (s.withOut o) = memRead a s := rfl
@[simp] theorem readInt_withOut (i : Nat) (site : Site) : readInt i site (s.withOut o) = readInt i site s := rfl
@[simp] theorem readStackPtr_withOut (op : Opcode) : readStackPtr op (s.withOut o) = readStackPtr op s := rfl
@[simp] theorem effAddr_withOut (i : Nat) (off : Int) (site : Site) :
    effAddr i off site (s.withOut o) = effAddr i off site s := rfl
@[simp] theorem resolveReadLoc_withOut (d : Loc) (site : Site) :
    resolveReadLoc d site (s.withOut o) = resolveReadLoc d site s := rfl
@[simp] theorem resolveRead_withOut (src : Src) (site : Site) :
    resolveRead src site (s.withOut o) = resolveRead src site s := rfl

@[simp] theorem writeReg_withOut (i : Nat) (v : Value) :
    writeReg i v (s.withOut o) = (writeReg i v s).map (·.withOut o) := by
  by_cases h : i < s.cfg.regCount <;> simp [writeReg, h, Except.map]

@[simp] theorem memWrite_withOut (a : Int) (v : Value) :
    memWrite a v (s.withOut o) = (memWrite a v s).map (·.withOut o) := by
  by_cases h : 0 ≤ a ∧ a < s.cfg.memSize <;> simp [memWrite, h, Except.map]

@[simp] theorem writeStackPtr_withOut (n : Int) :
    writeStackPtr n (s.withOut o) = (writeStackPtr n s).map (·.withOut o) := writeReg_withOut s o _ _

@[simp] theorem setPC_withOut (v : Int) : setPC v (s.withOut o) = (setPC v s).map (·.withOut o) := by
  by_cases h : v < 0 <;> simp [setPC, h, Except.map]

@[simp] theorem resolveWrite_withOut (d : Loc) (v : Value) (site : Site) :
    resolveWrite d v site (s.withOut o) = (resolveWrite d v site s).map (·.withOut o) := by
  cases d with
  | reg i => exact writeReg_withOut s o i v
  | ind i off =>
    simp only [resolveWrite, effAddr_withOut]
    cases effAddr i off site s with
    | error c => rfl
    | ok a => exact memWrite_withOut s o a v

end

/-- A statement whose result is changed by `f` goes on as the continuation after `f`. -/
@[simp] theorem attempt_map {α β : Type} (addr : Nat) (s : State) (r : Except Cause α) (f : α → β) (k : β → State) :
    attempt addr s (r.map f) k = attempt addr s r fun a => k (f a) := by
  cases r <;> rfl

/-- A statement commutes with the replacement of the output where its continuation does. -/
@[simp] theorem attempt_withOut {α : Type} (addr : Nat) (s : State) (o : List Text) (r : Except Cause α)
    (k : α → State) :
    (attempt addr (s.withOut o) r fun a => (k a).withOut o) = (attempt addr s r k).withOut o := by
  cases r <;> rfl

/-- Every instruction but Echo does the same whatever the output was, and leaves it. -/
theorem exec_withOut {i : Instr} {s t : State} (o : List Text) (hi : ∀ d, i ≠ .echo d) (h : exec i s = .next t) :
    exec i (s.withOut o) = .next (t.withOut o) := by
  cases i with
  | add i j k => cases h; simp [exec, execAdd]
  | mul i j k => cases h; simp [exec, execMul]
  | decrement i => cases h; simp [exec, execDecrement]
  | testEquals i j => cases h; simp [exec, execTestEquals]
  | jump w => cases h; simp [exec, execJump]
  | jumpIfTrue w =>
    cases h
    simp only [exec, execJumpIfTrue, State.withOut_flag]
    cases s.flag <;> simp
  | call w => cases h; simp [exec, execCall]
  | ret => cases h; simp [exec, execRet]
  | push i => cases h; simp [exec, execPush]
  | pop i => cases h; simp [exec, execPop]
  | move d src => cases h; simp [exec, execMove]
  | echo d => exact absurd rfl (hi d)
  | iinput a =>
    cases h
    simp only [exec, execIinput, State.withOut_nextAnswer, State.withOut_cfg]
    cases s.nextAnswer with
    | fail => simp
    | line l =>
      dsimp only
      cases parseInt s.cfg.parser l <;> simp
  | halt => cases h; simp [exec, execHalt]

/-- Echo appends one string that does not depend on the output, or raises an error and appends none. -/
theorem execEcho_withOut {d : Loc} {s t : State} (h : execEcho d s = .next t) :
    ∃ new : List Text, new.length ≤ 1 ∧ ∀ o, execEcho d (s.withOut o) = .next (t.withOut (o ++ new)) := by
  cases h
  simp only [execEcho, resolveReadLoc_withOut]
  cases resolveReadLoc d (.base .echo 0) s with
  | error c => exact ⟨[], by simp, fun o => by simp⟩
  | ok v => exact ⟨[reprText s.draws v], by simp, fun o => by simp⟩

/-- What is appended is the same for every output, so it is what the instruction appends to the present one. -/
theorem out_of_exec_withOut {i : Instr} {s t : State} {new : List Text} (h : exec i s = .next t)
    (hw : exec i (s.withOut s.out) = .next (t.withOut (s.out ++ new))) : t.out = s.out ++ new := by
  rw [State.withOut_self, h, Host.Outcome.next.injEq] at hw
  simpa using congrArg State.out hw

/-- Settles O53: every instruction but Echo commutes with replacing the output, and Echo does up to what it appends. -/
theorem outputIsAppendedAndNeverRead : Obligations.OutputIsAppendedAndNeverRead := by
  intro i s t h
  by_cases hi : ∃ d, i = .echo d
  · obtain ⟨d, rfl⟩ := hi
    obtain ⟨new, hlen, hw⟩ := execEcho_withOut h
    exact ⟨new, hlen, fun hne => absurd rfl (hne d), out_of_exec_withOut h (hw s.out), hw⟩
  · have hw : ∀ o, exec i (s.withOut o) = .next (t.withOut (o ++ [])) := fun o => by
      simpa using exec_withOut o (not_exists.1 hi) h
    exact ⟨[], by simp, fun _ => rfl, out_of_exec_withOut h (hw s.out), hw⟩

end Sys2Proof.Machine

/-! PROOFS. The family 10_state.md: what a boot leaves (R53), and what an instruction leaves unchanged of the registers
(R37, R85), of the flag (R45, R46) and of the program counter (R40, R41). -/

namespace Sys2Proof.Machine

open Sys2Proof

/-! The load. -/

/-- A load that goes through places its first item, validated, in a slot that exists and loads the others. -/
theorem load_cons_next {a : Nat} {item : ImageItem} {rest : Image} {s t : State}
    (h : load ((a, item) :: rest) s = .next t) :
    ∃ v, item.value = .ok v ∧ a < s.cfg.memSize ∧ load rest (s.setSlot a v) = .next t := by
  rw [load] at h
  split at h
  · cases h
  · next v hv =>
    split at h
    · cases h
    · next u hu =>
      obtain ⟨ha, rfl⟩ := memWrite_ok_iff.1 hu
      exact ⟨v, hv, by omega, h⟩

/-- The load writes the memory and nothing else. -/
theorem load_keeps_all_but_mem {image : Image} {s t : State} (h : load image s = .next t) :
    t = { s with mem := t.mem } := by
  induction image generalizing s with
  | nil => cases h; rfl
  | cons q rest ih =>
    obtain ⟨v, -, -, hrest⟩ := load_cons_next h
    exact (ih hrest).trans rfl

theorem load_mem_of_not_placed {image : Image} {s t : State} {a : Nat} (h : load image s = .next t)
    (ha : ∀ q ∈ image, q.1 ≠ a) : Slots.get t.mem a = Slots.get s.mem a := by
  induction image generalizing s with
  | nil => cases h; rfl
  | cons q rest ih =>
    obtain ⟨v, -, -, hrest⟩ := load_cons_next h
    obtain ⟨hq, hne⟩ := List.forall_mem_cons.1 ha
    rw [ih hrest hne, State.setSlot_mem, Slots.get_set_of_ne hq.symm]

/-- Where no slot is placed twice, what the load places in a slot stays there: no later item overwrites it. -/
theorem load_mem_of_placed {image : Image} {s t : State} (h : load image s = .next t)
    (hd : (image.map Prod.fst).Nodup) :
    ∀ q ∈ image, ∃ v, q.2.value = .ok v ∧ q.1 < s.cfg.memSize ∧ Slots.get t.mem q.1 = v := by
  induction image generalizing s with
  | nil => simp
  | cons p rest ih =>
    obtain ⟨v, hv, hp, hrest⟩ := load_cons_next h
    obtain ⟨hfresh, hd⟩ := List.nodup_cons.1 hd
    have hlater : ∀ q ∈ rest, q.1 ≠ p.1 := fun q hq he => hfresh (he ▸ List.mem_map_of_mem hq)
    have hkept : Slots.get t.mem p.1 = v := by
      rw [load_mem_of_not_placed hrest hlater, State.setSlot_mem, Slots.get_set_self]
    exact List.forall_mem_cons.2 ⟨⟨v, hv, hp, hkept⟩, (ih hrest hd :)⟩

/-- A boot that succeeds is a load into the reset state of some configuration. -/
theorem boot_next {m r : Int} {sp : Nat} {p : Parser} {script : List Answer} {image : Image} {s : State}
    (h : boot m r sp p script image = .next s) : ∃ c, load image (State.resetWith c script) = .next s := by
  unfold boot at h
  split at h
  · cases h
  · split at h
    · cases h
    · exact ⟨_, h⟩

/-- Settles O25: the load writes the memory alone, the placed slots and no others, into the reset state. -/
theorem bootLeavesTheResetState : Obligations.BootLeavesTheResetState := by
  intro m r sp p script image s h
  obtain ⟨c, hload⟩ := boot_next h
  have hs := load_keeps_all_but_mem hload
  have hcfg : s.cfg = c := by rw [hs]; rfl
  have hx : s.x = [] := by rw [hs]; rfl
  refine ⟨by rw [hs]; rfl, by rw [hs]; rfl, by rw [hs]; rfl, by rw [hs]; rfl, fun i hi => ?_, fun a ha hlt => ?_,
    fun hd q hq => ?_⟩
  · exact readReg_ok_iff.2 ⟨hi, by rw [hx, Slots.get_nil]⟩
  · exact memRead_ok_iff.2 ⟨by omega, load_mem_of_not_placed hload ha⟩
  · obtain ⟨v, hv, hlt, hget⟩ := load_mem_of_placed hload hd q hq
    rw [State.resetWith_cfg, ← hcfg] at hlt
    exact ⟨v, hv, memRead_ok_iff.2 ⟨by omega, hget⟩⟩

/-! The frame rule. An instruction is a composition of updates of the state, each of a kind its row of the spec allows;
an observation that those updates leave alone is left alone by the instruction, faulting or not. -/

/-- The updates that instruction `i` may make when it starts in state `s` leave the observation `π` as it was: its
destination registers, the slot it stores to, `pc`, the flag, the ports and the draws where it has to do with them, and
`run`. -/
structure Unobserved {α : Type} (π : State → α) (s : State) (i : Instr) : Prop where
  setRun : ∀ u r, π (u.setRun r) = π u
  setReg : ∀ u j v, j ∈ destRegs s i → π (u.setReg j v) = π u
  setSlot : ∀ u (a : Int) v, 0 ≤ a → storeAddr s i = some a → π (u.setSlot a.toNat v) = π u
  setPc : ∀ u p, i.transfersControl = true → π (u.setPc p) = π u
  setFlag : ∀ u b, i.setsFlag = true → π (u.setFlag b) = π u
  emit : ∀ u t, (∃ d, i = .echo d) → π (u.emit t) = π u
  consumeAnswer : ∀ u, (∃ a, i = .iinput a) → π u.consumeAnswer = π u
  addDraws : ∀ u n, ((∃ j k, i = .testEquals j k) ∨ ∃ d, i = .echo d) → π (u.addDraws n) = π u

theorem Unobserved.raise {α : Type} {π : State → α} {s : State} {i : Instr} (hπ : Unobserved π s i) (u : State)
    (addr : Nat) (c : Cause) : π (u.raise addr c) = π u := hπ.setRun u _

theorem storeAddr_call {s : State} {w sp : Word} (h : readReg s.cfg.spIndex s = .ok (.int sp)) :
    storeAddr s (.call w) = some sp.toInt := by
  simp [storeAddr, readStackPtr_ok_iff.2 ⟨sp, h, rfl⟩, Except.toOption]

theorem storeAddr_push {s : State} {i : Nat} {sp : Word} (h : readReg s.cfg.spIndex s = .ok (.int sp)) :
    storeAddr s (.push i) = some sp.toInt := by
  simp [storeAddr, readStackPtr_ok_iff.2 ⟨sp, h, rfl⟩, Except.toOption]

theorem storeAddr_move_ind {s : State} {i : Nat} {off a : Int} {src : Src}
    (h : effAddr i off (.base .move 0) s = .ok a) : storeAddr s (.move (.ind i off) src) = some a := by
  simp [storeAddr, h, Except.toOption]

/-- Both writes Call makes before it sets `pc` are to its own register and slot. -/
theorem Unobserved.eq_callPushed {α : Type} {π : State → α} {s : State} {w sp : Word} (hπ : Unobserved π s (.call w))
    (hr : readReg s.cfg.spIndex s = .ok (.int sp)) (h0 : 0 ≤ sp.toInt) : π (callPushed s sp) = π s :=
  calc π (callPushed s sp)
    _ = π (s.setSlot sp.toInt.toNat (.int (wrap32 s.pc))) := hπ.setReg _ _ _ (by simp [destRegs])
    _ = π s := hπ.setSlot _ _ _ h0 (storeAddr_call hr)

/-- The frame rule: an observation of none of the updates an instruction may make is the same after it. -/
theorem Unobserved.eq_of_exec {α : Type} {π : State → α} {i : Instr} {s t : State} (hπ : Unobserved π s i)
    (h : exec i s = .next t) : π t = π s := by
  cases i with
  | add i j k =>
    obtain ⟨c, -, rfl⟩ | ⟨a, b, -, -, -, rfl⟩ := execAdd_cases h
    · exact hπ.raise _ _ _
    · exact hπ.setReg _ _ _ (by simp [destRegs])
  | mul i j k =>
    obtain ⟨c, -, rfl⟩ | ⟨a, b, -, -, -, rfl⟩ := execMul_cases h
    · exact hπ.raise _ _ _
    · exact hπ.setReg _ _ _ (by simp [destRegs])
  | decrement i =>
    obtain ⟨c, -, rfl⟩ | ⟨a, -, rfl⟩ := execDecrement_cases h
    · exact hπ.raise _ _ _
    · exact hπ.setReg _ _ _ (by simp [destRegs])
  | testEquals j k =>
    obtain ⟨c, -, rfl⟩ | ⟨a, b, -, -, rfl⟩ := execTestEquals_cases h
    · exact hπ.raise _ _ _
    · rw [hπ.addDraws _ _ (.inl ⟨j, k, rfl⟩), hπ.setFlag _ _ rfl]
  | jump w =>
    obtain ⟨c, -, rfl⟩ | ⟨-, rfl⟩ := execJump_cases h
    · exact hπ.raise _ _ _
    · exact hπ.setPc _ _ rfl
  | jumpIfTrue w =>
    obtain ⟨c, -, rfl⟩ | ⟨-, -, rfl⟩ | ⟨-, rfl⟩ := execJumpIfTrue_cases h
    · exact hπ.raise _ _ _
    · exact hπ.setPc _ _ rfl
    · rfl
  | call w =>
    obtain ⟨c, -, rfl⟩ | ⟨sp, hr, ⟨h0, -⟩, ⟨-, rfl⟩ | ⟨-, rfl⟩⟩ := execCall_cases h
    · exact hπ.raise _ _ _
    · rw [hπ.raise, hπ.eq_callPushed hr h0]
    · rw [hπ.setPc _ _ rfl, hπ.eq_callPushed hr h0]
  | ret =>
    obtain ⟨c, -, rfl⟩ | ⟨sp, w, -, -, -, rfl⟩ := execRet_cases h
    · exact hπ.raise _ _ _
    · rw [hπ.setReg _ _ _ (by simp [destRegs]), hπ.setPc _ _ rfl]
  | push i =>
    obtain ⟨c, -, rfl⟩ | ⟨sp, v, hr, -, ⟨h0, -⟩, rfl⟩ := execPush_cases h
    · exact hπ.raise _ _ _
    · rw [hπ.setReg _ _ _ (by simp [destRegs]), hπ.setSlot _ _ _ h0 (storeAddr_push hr)]
  | pop i =>
    obtain ⟨c, -, rfl⟩ | ⟨sp, v, -, -, -, rfl⟩ := execPop_cases h
    · exact hπ.raise _ _ _
    · rw [hπ.setReg _ _ _ (by simp [destRegs]), hπ.setReg _ _ _ (by simp [destRegs])]
  | move d src =>
    obtain ⟨c, -, rfl⟩ | ⟨v, -, ⟨i, rfl, -, rfl⟩ | ⟨i, off, a, rfl, ha, ⟨h0, -⟩, rfl⟩⟩ := execMove_cases h
    · exact hπ.raise _ _ _
    · exact hπ.setReg _ _ _ (by simp [destRegs])
    · exact hπ.setSlot _ _ _ h0 (storeAddr_move_ind ha)
  | echo d =>
    obtain ⟨c, -, rfl⟩ | ⟨v, -, rfl⟩ := execEcho_cases h
    · exact hπ.raise _ _ _
    · rw [hπ.addDraws _ _ (.inr ⟨d, rfl⟩), hπ.emit _ _ ⟨d, rfl⟩]
  | iinput a =>
    have hconsume : π s.consumeAnswer = π s := hπ.consumeAnswer s ⟨a, rfl⟩
    obtain ⟨c, -, rfl⟩ | rfl | ⟨line, n, -, -, ⟨h0, -⟩, rfl⟩ := execIinput_cases h
    · rw [hπ.raise, hconsume]
    · rw [hπ.setFlag _ _ rfl, hconsume]
    · rw [hπ.setFlag _ _ rfl, hπ.setSlot _ _ _ h0 rfl, hconsume]
  | halt =>
    obtain rfl := execHalt_cases h
    exact hπ.setRun _ _

/-! What an instruction leaves of the registers, the flag and `pc`. -/

theorem unobserved_readReg {r : Nat} {s : State} {i : Instr} (hr : r ∉ destRegs s i) :
    Unobserved (readReg r) s i where
  setRun _ _ := rfl
  setReg u j v hj := by
    have hne : r ≠ j := fun he => hr (he ▸ hj)
    simp [readReg_setReg, hne]
  setSlot _ _ _ _ _ := rfl
  setPc _ _ _ := rfl
  setFlag _ _ _ := rfl
  emit _ _ _ := rfl
  consumeAnswer _ _ := rfl
  addDraws _ _ _ := rfl

theorem unobserved_flag {s : State} {i : Instr} (hi : i.setsFlag = false) : Unobserved State.flag s i where
  setRun _ _ := rfl
  setReg _ _ _ _ := rfl
  setSlot _ _ _ _ _ := rfl
  setPc _ _ _ := rfl
  setFlag _ _ h := by simp [hi] at h
  emit _ _ _ := rfl
  consumeAnswer _ _ := rfl
  addDraws _ _ _ := rfl

theorem unobserved_pc {s : State} {i : Instr} (hi : i.transfersControl = false) : Unobserved State.pc s i where
  setRun _ _ := rfl
  setReg _ _ _ _ := rfl
  setSlot _ _ _ _ _ := rfl
  setPc _ _ h := by simp [hi] at h
  setFlag _ _ _ := rfl
  emit _ _ _ := rfl
  consumeAnswer _ _ := rfl
  addDraws _ _ _ := rfl

/-- Settles O47, by the frame rule: a register outside the destinations observes no update. -/
theorem registersOutsideTheDestinationsKeep : Obligations.RegistersOutsideTheDestinationsKeep :=
  fun _ _ _ _ h hr => (unobserved_readReg hr).eq_of_exec h

theorem setsFlag_eq_false {i : Instr} (ht : ∀ j k, i ≠ .testEquals j k) (hi : ∀ a, i ≠ .iinput a) :
    i.setsFlag = false := by
  cases i with
  | testEquals j k => exact absurd rfl (ht j k)
  | iinput a => exact absurd rfl (hi a)
  | _ => rfl

/-- Settles O49, by the frame rule: only the two writers' updates reach the flag. -/
theorem onlyTestEqualsAndIInputWriteTheFlag : Obligations.OnlyTestEqualsAndIInputWriteTheFlag :=
  fun _ _ _ h ht hi => (unobserved_flag (setsFlag_eq_false ht hi)).eq_of_exec h

theorem word_toNat_toInt_le (w : Word) : w.toInt.toNat ≤ 2147483647 := by
  have := word_toInt_bounds w
  omega

/-- Settles O51: the frame rule for the ten instructions that do not transfer control; a transfer that raises an error
has not reached `pc`, and one that completes has set it to an `i32` that is not negative. -/
theorem onlyTransfersSetThePc : Obligations.OnlyTransfersSetThePc := by
  intro i s t h hpc
  cases i with
  | jump w =>
    obtain ⟨c, -, rfl⟩ | ⟨-, rfl⟩ := execJump_cases h
    · exact absurd rfl hpc
    · exact ⟨rfl, word_toNat_toInt_le w, rfl⟩
  | jumpIfTrue w =>
    obtain ⟨c, -, rfl⟩ | ⟨-, -, rfl⟩ | ⟨-, rfl⟩ := execJumpIfTrue_cases h
    · exact absurd rfl hpc
    · exact ⟨rfl, word_toNat_toInt_le w, rfl⟩
    · exact absurd rfl hpc
  | call w =>
    obtain ⟨c, -, rfl⟩ | ⟨sp, -, -, ⟨-, rfl⟩ | ⟨-, rfl⟩⟩ := execCall_cases h
    · exact absurd rfl hpc
    · exact absurd rfl hpc
    · exact ⟨rfl, word_toNat_toInt_le w, rfl⟩
  | ret =>
    obtain ⟨c, -, rfl⟩ | ⟨sp, w, -, -, -, rfl⟩ := execRet_cases h
    · exact absurd rfl hpc
    · exact ⟨rfl, word_toNat_toInt_le w, rfl⟩
  | _ => exact absurd ((unobserved_pc rfl).eq_of_exec h) hpc

/-! The flag is not read. A state with its flag replaced: every operation commutes with the replacement, and none reads
what is replaced. The `simp` lemmas move the replacement outwards. -/

section

variable (s : State) (b : Bool)

@[simp] theorem State.setFlag_instrAddr : (s.setFlag b).instrAddr = s.instrAddr := rfl
@[simp] theorem State.setFlag_nextAnswer : (s.setFlag b).nextAnswer = s.nextAnswer := rfl
@[simp] theorem State.setReg_setFlag (i : Nat) (v : Value) :
    (s.setFlag b).setReg i v = (s.setReg i v).setFlag b := rfl
@[simp] theorem State.setSlot_setFlag (a : Nat) (v : Value) :
    (s.setFlag b).setSlot a v = (s.setSlot a v).setFlag b := rfl
@[simp] theorem State.setPc_setFlag (p : Nat) : (s.setFlag b).setPc p = (s.setPc p).setFlag b := rfl
@[simp] theorem State.setRun_setFlag (r : RunState) : (s.setFlag b).setRun r = (s.setRun r).setFlag b := rfl
@[simp] theorem State.emit_setFlag (t : Text) : (s.setFlag b).emit t = (s.emit t).setFlag b := rfl
@[simp] theorem State.addDraws_setFlag (n : Nat) : (s.setFlag b).addDraws n = (s.addDraws n).setFlag b := rfl
@[simp] theorem State.consumeAnswer_setFlag : (s.setFlag b).consumeAnswer = s.consumeAnswer.setFlag b := rfl

@[simp] theorem readReg_setFlag (i : Nat) : readReg i (s.setFlag b) = readReg i s := rfl
@[simp] theorem memRead_setFlag (a : Int) : memRead a (s.setFlag b) = memRead a s := rfl
@[simp] theorem readInt_setFlag (i : Nat) (site : Site) : readInt i site (s.setFlag b) = readInt i site s := rfl
@[simp] theorem readStackPtr_setFlag (op : Opcode) : readStackPtr op (s.setFlag b) = readStackPtr op s := rfl
@[simp] theorem effAddr_setFlag (i : Nat) (off : Int) (site : Site) :
    effAddr i off site (s.setFlag b) = effAddr i off site s := rfl
@[simp] theorem resolveReadLoc_setFlag (d : Loc) (site : Site) :
    resolveReadLoc d site (s.setFlag b) = resolveReadLoc d site s := rfl
@[simp] theorem resolveRead_setFlag (src : Src) (site : Site) :
    resolveRead src site (s.setFlag b) = resolveRead src site s := rfl

@[simp] theorem writeReg_setFlag (i : Nat) (v : Value) :
    writeReg i v (s.setFlag b) = (writeReg i v s).map (·.setFlag b) := by
  by_cases h : i < s.cfg.regCount <;> simp [writeReg, h, Except.map]

@[simp] theorem memWrite_setFlag (a : Int) (v : Value) :
    memWrite a v (s.setFlag b) = (memWrite a v s).map (·.setFlag b) := by
  by_cases h : 0 ≤ a ∧ a < s.cfg.memSize <;> simp [memWrite, h, Except.map]

@[simp] theorem writeStackPtr_setFlag (n : Int) :
    writeStackPtr n (s.setFlag b) = (writeStackPtr n s).map (·.setFlag b) := writeReg_setFlag s b _ _

@[simp] theorem setPC_setFlag (v : Int) : setPC v (s.setFlag b) = (setPC v s).map (·.setFlag b) := by
  by_cases h : v < 0 <;> simp [setPC, h, Except.map]

@[simp] theorem resolveWrite_setFlag (d : Loc) (v : Value) (site : Site) :
    resolveWrite d v site (s.setFlag b) = (resolveWrite d v site s).map (·.setFlag b) := by
  cases d with
  | reg i => exact writeReg_setFlag s b i v
  | ind i off =>
    simp only [resolveWrite, effAddr_setFlag]
    cases effAddr i off site s with
    | error c => rfl
    | ok a => exact memWrite_setFlag s b a v

/-- A statement commutes with the replacement of the flag where its continuation does. -/
@[simp] theorem attempt_setFlag {α : Type} (addr : Nat) (r : Except Cause α) (k : α → State) :
    (attempt addr (s.setFlag b) r fun a => (k a).setFlag b) = (attempt addr s r k).setFlag b := by
  cases r <;> rfl

end

/-- An instruction that neither tests nor writes the flag does the same whatever the flag was, and leaves it. -/
theorem exec_setFlag {i : Instr} {s t : State} (b : Bool) (hj : ∀ w, i ≠ .jumpIfTrue w) (hi : i.setsFlag = false)
    (h : exec i s = .next t) : exec i (s.setFlag b) = .next (t.setFlag b) := by
  cases i with
  | add i j k => cases h; simp [exec, execAdd]
  | mul i j k => cases h; simp [exec, execMul]
  | decrement i => cases h; simp [exec, execDecrement]
  | testEquals i j => cases hi
  | jump w => cases h; simp [exec, execJump]
  | jumpIfTrue w => exact absurd rfl (hj w)
  | call w => cases h; simp [exec, execCall]
  | ret => cases h; simp [exec, execRet]
  | push i => cases h; simp [exec, execPush]
  | pop i => cases h; simp [exec, execPop]
  | move d src => cases h; simp [exec, execMove]
  | echo d => cases h; simp [exec, execEcho]
  | iinput a => cases hi
  | halt => cases h; simp [exec, execHalt]

/-- An instruction that writes the flag gives, started with another value of it, the same error and the other value, or
completes in the very same state. -/
theorem exec_setFlag_of_setsFlag {i : Instr} {s t : State} (b : Bool) (hi : i.setsFlag = true)
    (h : exec i s = .next t) :
    (∃ f, t.run = .faulted f ∧ exec i (s.setFlag b) = .next (t.setFlag b)) ∨
      (t.run = s.run ∧ exec i (s.setFlag b) = .next t) := by
  cases i with
  | testEquals i j =>
    cases h
    simp only [exec, execTestEquals, readReg_setFlag, State.setFlag_instrAddr]
    cases readReg i s with
    | error c => exact .inl ⟨_, rfl, rfl⟩
    | ok v =>
      cases readReg j s with
      | error c => exact .inl ⟨_, rfl, rfl⟩
      | ok w => exact .inr ⟨rfl, rfl⟩
  | iinput a =>
    cases h
    simp only [exec, execIinput, State.setFlag_nextAnswer, State.setFlag_cfg, State.consumeAnswer_setFlag,
      memWrite_setFlag, attempt_map]
    cases s.nextAnswer with
    | fail => exact .inr ⟨rfl, rfl⟩
    | line l =>
      dsimp only
      cases parseInt s.cfg.parser l with
      | none => exact .inr ⟨rfl, rfl⟩
      | some n =>
        dsimp only
        cases hw : memWrite a.toInt (.int n) s.consumeAnswer with
        | error c => exact .inl ⟨_, rfl, rfl⟩
        | ok u =>
          obtain ⟨-, rfl⟩ := memWrite_ok_iff.1 hw
          exact .inr ⟨rfl, rfl⟩
  | _ => cases hi

/-- Settles O50: the instructions that do not write the flag commute with replacing it, and the two writers either raise
an error before they write it or overwrite what it was. -/
theorem onlyJumpIfTrueReadsTheFlag : Obligations.OnlyJumpIfTrueReadsTheFlag := by
  intro i b s t hj h
  cases hi : i.setsFlag with
  | false => exact ⟨b, exec_setFlag b hj hi h, by simp⟩
  | true =>
    obtain ⟨f, hf, hb⟩ | ⟨hrun, hb⟩ := exec_setFlag_of_setsFlag b hi h
    · exact ⟨b, hb, by simp [hf]⟩
    · exact ⟨t.flag, hb, fun hs => by simp [hrun, hs]⟩

end Sys2Proof.Machine

/-! PROOFS. The family 20_memory.md: the bounds check of every access (R64), and what an instruction leaves unchanged of
the memory (R61, R62). -/

namespace Sys2Proof.Machine

open Sys2Proof

/-- Settles O11, from the results and the errors of the four accessors: a register's clauses, then a slot's. -/
theorem boundsAreCheckedOnEveryAccess : Obligations.BoundsAreCheckedOnEveryAccess := by
  intro s i a v
  refine ⟨fun hi => ?_, fun hi => ?_, fun ha => ?_, fun h0 hlt => ?_⟩
  · exact ⟨readReg_error_iff.2 ⟨hi, rfl⟩, writeReg_error_iff.2 ⟨hi, rfl⟩⟩
  · exact ⟨⟨_, readReg_ok_iff.2 ⟨hi, rfl⟩⟩, _, writeReg_ok_iff.2 ⟨hi, rfl⟩⟩
  · have hout : ¬(0 ≤ a ∧ a < s.cfg.memSize) := by omega
    exact ⟨memRead_error_iff.2 ⟨hout, rfl⟩, memWrite_error_iff.2 ⟨hout, rfl⟩⟩
  · exact ⟨⟨_, memRead_ok_iff.2 ⟨⟨h0, hlt⟩, rfl⟩⟩, _, memWrite_ok_iff.2 ⟨⟨h0, hlt⟩, rfl⟩⟩

/-- A read of a slot the instruction does not store to: of the updates it may make, only a store changes memory, and it
goes to another slot. -/
theorem unobserved_memRead {a : Int} {s : State} {i : Instr} (ha : storeAddr s i ≠ some a) :
    Unobserved (memRead a) s i where
  setRun _ _ := rfl
  setReg _ _ _ _ := rfl
  setSlot _ b _ h0 hb := by
    have hne : a ≠ b := fun he => ha (he ▸ hb)
    exact memRead_setSlot_of_ne h0 hne
  setPc _ _ _ := rfl
  setFlag _ _ _ := rfl
  emit _ _ _ := rfl
  consumeAnswer _ _ := rfl
  addDraws _ _ _ := rfl

/-- Settles O48, by the frame rule: a slot outside the store observes no update. -/
theorem memoryOutsideTheStoreKeeps : Obligations.MemoryOutsideTheStoreKeeps :=
  fun _ _ _ _ h ha => (unobserved_memRead ha).eq_of_exec h

end Sys2Proof.Machine

/-! PROOFS. The family 30_encoding.md: the fields of a descriptor word (R91 to R93), validation against the signature
table (R98, R100), and what a record's operand words mean (R104). -/

namespace Sys2Proof

/-! The fields of a descriptor. -/

theorem descIndex_eq_mod (d : Word) : descIndex d = d.toNat % 256 := by
  rw [descIndex, BitVec.toNat_and]
  exact Nat.and_two_pow_sub_one_eq_mod d.toNat 8

theorem descIndirect_eq_true_iff (d : Word) : descIndirect d = true ↔ d.toNat / 2 ^ 24 % 2 = 1 := by
  simp [descIndirect, BitVec.getLsbD, Nat.testBit_eq_decide_div_mod_eq]

theorem word_and_low16_toNat (w : Word) : (w &&& 0xFFFF#32).toNat = w.toNat % 65536 := by
  rw [BitVec.toNat_and]
  exact Nat.and_two_pow_sub_one_eq_mod w.toNat 16

/-- The procedure R93 quotes isolates the 16-bit offset field in a 32-bit word. -/
theorem shiftRight_and_low16_eq_setWidth (d : Word) :
    (d >>> 8) &&& 0xFFFF#32 = (d.extractLsb' 8 16).setWidth 32 := by
  apply BitVec.eq_of_toNat_eq
  rw [word_and_low16_toNat, BitVec.toNat_ushiftRight, BitVec.toNat_setWidth_of_le (by decide),
    BitVec.extractLsb'_toNat]

/-- Complement, plus one, low 16 bits: the magnitude of a negative field. -/
theorem toInt_eq_neg_complement_of_msb {f : BitVec 16} (h : f.msb = true) :
    f.toInt = -(((~~~(f.setWidth 32) + 1#32) &&& 0xFFFF#32).toNat : Int) := by
  have hneg := BitVec.msb_eq_true_iff_two_mul_ge.1 h
  rw [BitVec.toInt_eq_msb_cond, if_pos h, word_and_low16_toNat, BitVec.toNat_add, BitVec.toNat_not,
    BitVec.toNat_setWidth, BitVec.toNat_ofNat]
  omega

theorem toInt_eq_toNat_setWidth_of_msb {f : BitVec 16} (h : f.msb = false) :
    f.toInt = ((f.setWidth 32).toNat : Int) := by
  rw [BitVec.toInt_eq_toNat_of_msb h, BitVec.toNat_setWidth_of_le (by decide)]

theorem descOffset_eq_procedure (d : Word) :
    descOffset d =
      if ((d >>> 8) &&& 0xFFFF#32).getLsbD 15 then
        -(((~~~((d >>> 8) &&& 0xFFFF#32) + 1#32) &&& 0xFFFF#32).toNat : Int)
      else (((d >>> 8) &&& 0xFFFF#32).toNat : Int) := by
  rw [shiftRight_and_low16_eq_setWidth, descOffset]
  generalize d.extractLsb' 8 16 = f
  have hsign : (f.setWidth 32).getLsbD 15 = f.msb := by simp [BitVec.msb_eq_getLsbD_last]
  rw [hsign]
  split
  · next h => exact toInt_eq_neg_complement_of_msb h
  · next h => exact toInt_eq_toNat_setWidth_of_msb (Bool.eq_false_iff.2 h)

theorem descOffset_bounds (d : Word) : -32768 ≤ descOffset d ∧ descOffset d ≤ 32767 :=
  ⟨BitVec.le_toInt _, Int.le_sub_one_of_lt (BitVec.toInt_lt (x := d.extractLsb' 8 16))⟩

/-- Settles O2, field by field. -/
theorem descriptorFieldsOfEveryWord : Obligations.DescriptorFieldsOfEveryWord := by
  intro d
  have hindex := descIndex_eq_mod d
  exact ⟨hindex, by omega, descIndirect_eq_true_iff d, descOffset_eq_procedure d, descOffset_bounds d⟩

/-! Validation. `MeetsRow` is the clause of R100 for the arguments from index `k` on, after the operands `prior` have
been read; it is built up one argument at a time, as `validate` reads them. -/

/-- The answer `r` for one argument is what its cell of the table demands: the cell's complaint, where it has one, or a
value whose operand form is the argument's. -/
structure MeetsCell {α : Type} (op : Opcode) (k : Nat) (cell : SignatureCell) (a : Arg) (form : α → Src)
    (r : Except ArgError α) : Prop where
  error : ∀ e, cell.complaint a = some e → r = .error (.argument op k e)
  ok : cell.complaint a = none → ∃ v, r = .ok v ∧ a.form = some (form v)

/-- The table's bit 24 (R98) is the descriptor's indirect flag (R92). -/
@[simp] theorem complaint_direct_descriptor (d : Word) :
    SignatureCell.direct.complaint (.descriptor d) = if descIndirect d then some .nonIndirectDescriptor else none := rfl

theorem argDirect_meetsCell (op : Opcode) (k : Nat) (a : Arg) :
    MeetsCell op k .direct a (fun i => .loc (.reg i)) (argDirect op k a) := by
  cases a with
  | descriptor d =>
    cases h : descIndirect d <;> constructor <;> simp [argDirect, Arg.form, h]
  | number n => constructor <;> simp [SignatureCell.complaint, argDirect]
  | text t => constructor <;> simp [SignatureCell.complaint, argDirect]

theorem argLoc_meetsCell (op : Opcode) (k : Nat) (a : Arg) :
    MeetsCell op k .anyDescriptor a Src.loc (argLoc op k a) := by
  cases a <;> constructor <;> simp [SignatureCell.complaint, argLoc, Arg.form, descForm]

theorem argNumber_meetsCell (op : Opcode) (k : Nat) (a : Arg) :
    MeetsCell op k .number a Src.num (argNumber op k a) := by
  cases a <;> constructor <;> simp [SignatureCell.complaint, argNumber, Arg.form]

theorem argSrc_meetsCell (op : Opcode) (k : Nat) (a : Arg) :
    MeetsCell op k .descriptorOrNumber a id (argSrc op k a) := by
  cases a <;> constructor <;> simp [SignatureCell.complaint, argSrc, Arg.form, descForm]

/-- The answer `r` for the arguments `args`, which start at index `k` and follow the operands `prior`: the first
complaint of the cells, or the instruction of `op` with `prior` and the forms of `args` as its operands. -/
structure MeetsRow (op : Opcode) (k : Nat) (prior : List Src) (cells : List SignatureCell) (args : List Arg)
    (r : Except ArgError Instr) : Prop where
  error : ∀ (j : Nat) (cell : SignatureCell) (a : Arg) (e : Expected),
    cells[j]? = some cell → args[j]? = some a → cell.complaint a = some e →
    (∀ (l : Nat) (cell' : SignatureCell) (a' : Arg), l < j → cells[l]? = some cell' → args[l]? = some a' →
      cell'.complaint a' = none) →
    r = .error (.argument op (k + j) e)
  ok : (∀ (j : Nat) (cell : SignatureCell) (a : Arg), cells[j]? = some cell → args[j]? = some a →
      cell.complaint a = none) →
    ∃ i, r = .ok i ∧ i.opcode = op ∧ i.operands.map some = prior.map some ++ args.map Arg.form

/-- With no argument left the instruction is the one that `prior` makes. -/
theorem MeetsRow.nil {op : Opcode} {k : Nat} {prior : List Src} {i : Instr} (hop : i.opcode = op)
    (hprior : i.operands = prior) : MeetsRow op k prior [] [] (.ok i) where
  error := by simp
  ok _ := ⟨i, rfl, hop, by simp [hprior]⟩

/-- One argument is checked, then those after it: its own complaint comes first, and theirs keep their index. -/
theorem MeetsRow.cons {α : Type} {op : Opcode} {k : Nat} {prior : List Src} {cell : SignatureCell} {a : Arg}
    {cells : List SignatureCell} {args : List Arg} {form : α → Src} {r : Except ArgError α}
    {f : α → Except ArgError Instr} (hr : MeetsCell op k cell a form r)
    (hf : ∀ v, MeetsRow op (k + 1) (prior ++ [form v]) cells args (f v)) :
    MeetsRow op k prior (cell :: cells) (a :: args) (r >>= f) where
  error
    | 0, _, _, e, rfl, rfl, he, _ => by rw [hr.error e he]; rfl
    | j + 1, c, b, e, hc, hb, he, hfirst => by
      obtain ⟨v, hv, -⟩ := hr.ok (hfirst 0 cell a j.succ_pos rfl rfl)
      have hlater := (hf v).error j c b e hc hb he fun l c' b' hl => hfirst (l + 1) c' b' (by omega)
      rw [hv, show k + (j + 1) = k + 1 + j by omega]
      exact hlater
  ok hfit := by
    obtain ⟨v, hv, hform⟩ := hr.ok (hfit 0 cell a rfl rfl)
    obtain ⟨i, hi, hop, hoperands⟩ := (hf v).ok fun j => hfit (j + 1)
    exact ⟨i, by rw [hv]; exact hi, hop, by simp [hoperands, hform]⟩

section

variable {op : Opcode} {args : List Arg}

theorem arity0_of_length_ne {i : Instr} (h : args.length ≠ 0) : arity0 op i args = .error (.arity op op.arity) := by
  match args, h with
  | _ :: _, _ => rfl

theorem arity1_of_length_ne {f : Arg → Except ArgError Instr} (h : args.length ≠ 1) :
    arity1 op f args = .error (.arity op op.arity) := by
  match args, h with
  | [], _ => rfl
  | _ :: _ :: _, _ => rfl

theorem arity2_of_length_ne {f : Arg → Arg → Except ArgError Instr} (h : args.length ≠ 2) :
    arity2 op f args = .error (.arity op op.arity) := by
  match args, h with
  | [], _ => rfl
  | [_], _ => rfl
  | _ :: _ :: _ :: _, _ => rfl

theorem arity3_of_length_ne {f : Arg → Arg → Arg → Except ArgError Instr} (h : args.length ≠ 3) :
    arity3 op f args = .error (.arity op op.arity) := by
  match args, h with
  | [], _ => rfl
  | [_], _ => rfl
  | [_, _], _ => rfl
  | _ :: _ :: _ :: _ :: _, _ => rfl

theorem validate_of_length_ne (h : args.length ≠ op.arity) : validate op args = .error (.arity op op.arity) := by
  cases op with
  | ret | halt => exact arity0_of_length_ne h
  | add | mul => exact arity3_of_length_ne h
  | testEquals | move => exact arity2_of_length_ne h
  | decrement | jump | jumpIfTrue | call | push | pop | echo | iinput => exact arity1_of_length_ne h

/-- R100 for arguments of the right number: each opcode's row of the table, cell by cell. -/
theorem validate_meetsRow (h : args.length = op.arity) :
    MeetsRow op 0 [] op.signature args (validate op args) := by
  cases op with
  | add | mul =>
    obtain ⟨a, b, c, rfl⟩ := List.length_eq_three.1 h
    exact .cons (argDirect_meetsCell _ 0 a) fun _ => .cons (argDirect_meetsCell _ 1 b) fun _ =>
      .cons (argDirect_meetsCell _ 2 c) fun _ => .nil rfl rfl
  | testEquals =>
    obtain ⟨a, b, rfl⟩ := List.length_eq_two.1 h
    exact .cons (argDirect_meetsCell _ 0 a) fun _ => .cons (argDirect_meetsCell _ 1 b) fun _ => .nil rfl rfl
  | move =>
    obtain ⟨a, b, rfl⟩ := List.length_eq_two.1 h
    exact .cons (argLoc_meetsCell _ 0 a) fun _ => .cons (argSrc_meetsCell _ 1 b) fun _ => .nil rfl rfl
  | decrement | push | pop =>
    obtain ⟨a, rfl⟩ := List.length_eq_one_iff.1 h
    exact .cons (argDirect_meetsCell _ 0 a) fun _ => .nil rfl rfl
  | jump | jumpIfTrue | call | iinput =>
    obtain ⟨a, rfl⟩ := List.length_eq_one_iff.1 h
    exact .cons (argNumber_meetsCell _ 0 a) fun _ => .nil rfl rfl
  | echo =>
    obtain ⟨a, rfl⟩ := List.length_eq_one_iff.1 h
    exact .cons (argLoc_meetsCell _ 0 a) fun _ => .nil rfl rfl
  | ret | halt =>
    obtain rfl := List.length_eq_zero_iff.1 h
    exact .nil rfl rfl

end

theorem signature_length (op : Opcode) : op.signature.length = op.arity := by cases op <;> rfl

theorem complaint_text_ne_none (cell : SignatureCell) (t : Text) : cell.complaint (.text t) ≠ none := by
  cases cell <;> simp [SignatureCell.complaint]

/-- Settles O9: the arity first, then the cells of the opcode's row in order. -/
theorem validationFollowsTheSignatureTable : Obligations.ValidationFollowsTheSignatureTable := by
  intro op args
  refine ⟨signature_length op, validate_of_length_ne, fun h => ?_, complaint_text_ne_none⟩
  obtain ⟨herror, hok⟩ := validate_meetsRow h
  exact ⟨fun k => by simpa using herror k, hok⟩

/-! Records. -/

/-- A record with a legal header and as many words as its opcode's arity decodes to what its operand words validate to,
and leaves the words after it. -/
theorem decodeRecord_of_record {h : Word} (op : Opcode) (ws : List Word) {rest : List Word} {i : Instr}
    (hi : validate op (tagOperands op (headerKind h) ws) = .ok i) (hreserved : headerReserved h = 0 := by rfl)
    (hop : Opcode.ofNumber (headerOp h) = some op := by rfl)
    (hkind : (headerKind h && op != .move) = false := by rfl) (hlen : ws.length = op.arity := by rfl) :
    decodeRecord (h :: (ws ++ rest)) = .ok (i, rest) := by
  simp [decodeRecord, hreserved, hop, hkind, ← hlen, hi]

theorem argDirect_of_direct {op : Opcode} {k : Nat} {d : Word} (h : descIndirect d = false) :
    argDirect op k (.descriptor d) = .ok (d.toNat % 256) := by
  simp [argDirect, h, descIndex_eq_mod]

/-! A direct descriptor reads as its low byte wherever R98 asks for one. -/

theorem arity1_direct {op : Opcode} {f : Nat → Instr} {a : Word} (ha : descIndirect a = false) :
    arity1 op (fun a => do return f (← argDirect op 0 a)) [.descriptor a] = .ok (f (a.toNat % 256)) := by
  rw [arity1, argDirect_of_direct ha]
  rfl

theorem arity2_direct {op : Opcode} {f : Nat → Nat → Instr} {a b : Word} (ha : descIndirect a = false)
    (hb : descIndirect b = false) :
    arity2 op (fun a b => do return f (← argDirect op 0 a) (← argDirect op 1 b)) [.descriptor a, .descriptor b] =
      .ok (f (a.toNat % 256) (b.toNat % 256)) := by
  rw [arity2, argDirect_of_direct ha, argDirect_of_direct hb]
  rfl

theorem arity3_direct {op : Opcode} {f : Nat → Nat → Nat → Instr} {a b c : Word} (ha : descIndirect a = false)
    (hb : descIndirect b = false) (hc : descIndirect c = false) :
    arity3 op (fun a b c => do return f (← argDirect op 0 a) (← argDirect op 1 b) (← argDirect op 2 c))
      [.descriptor a, .descriptor b, .descriptor c] =
      .ok (f (a.toNat % 256) (b.toNat % 256) (c.toNat % 256)) := by
  rw [arity3, argDirect_of_direct ha, argDirect_of_direct hb, argDirect_of_direct hc]
  rfl

/-- Settles O7, record by record. -/
theorem recordsDecodeForEveryOperandWord : Obligations.RecordsDecodeForEveryOperandWord := by
  intro a b c rest
  refine ⟨fun ha => ⟨?_, ?_, ?_, fun hb => ⟨?_, fun hc => ⟨?_, ?_⟩⟩⟩, ?_, ?_, ?_, ?_, ?_, ?_, ?_, ?_, ?_⟩
  · exact decodeRecord_of_record .decrement [a] (arity1_direct ha)
  · exact decodeRecord_of_record .push [a] (arity1_direct ha)
  · exact decodeRecord_of_record .pop [a] (arity1_direct ha)
  · exact decodeRecord_of_record .testEquals [a, b] (arity2_direct ha hb)
  · exact decodeRecord_of_record .add [a, b, c] (arity3_direct ha hb hc)
  · exact decodeRecord_of_record .mul [a, b, c] (arity3_direct ha hb hc)
  · exact decodeRecord_of_record .jump [a] rfl
  · exact decodeRecord_of_record .jumpIfTrue [a] rfl
  · exact decodeRecord_of_record .call [a] rfl
  · exact decodeRecord_of_record .ret [] rfl
  · exact decodeRecord_of_record .move [a, b] rfl
  · exact decodeRecord_of_record .move [a, b] rfl
  · exact decodeRecord_of_record .echo [a] rfl
  · exact decodeRecord_of_record .iinput [a] rfl
  · exact decodeRecord_of_record .halt [] rfl

end Sys2Proof

/-! PROOFS. The family 40_execute_loop.md: the fetch and its errors (R131), the dispatch of what was fetched (R132, R133),
and which steps end in HALTED (R134, R138). -/

namespace Sys2Proof.Machine

open Sys2Proof

variable {s t : State}

/-! A step of a running machine. -/

/-- The fetch succeeds exactly on a slot `pc` that holds an instruction handle. -/
theorem fetch_ok_iff_memRead {i : Instr} : fetch s = .ok i ↔ memRead s.pc s = .ok (.insn i) := by
  simp [fetch_ok_iff, memRead_ok_iff]

theorem step_of_fetch_ok {i : Instr} (hrun : s.run = .running) (hf : fetch s = .ok i) : step s = exec i s.advance := by
  simp [step, hrun, hf]

theorem step_of_fetch_error {c : Cause} (hrun : s.run = .running) (hf : fetch s = .error c) :
    step s = .next (s.raise s.pc c) := by
  simp [step, hrun, hf]

/-- Settles O13: the handle in slot `pc` is what the fetch answers. -/
theorem stepExecutesTheFetchedInstruction : Obligations.StepExecutesTheFetchedInstruction :=
  fun _ _ hrun hm => step_of_fetch_ok hrun (fetch_ok_iff_memRead.2 hm)

/-- Settles O14: the two errors the fetch can answer, each recorded at `pc`. -/
theorem fetchErrorsEndTheRun : Obligations.FetchErrorsEndTheRun := by
  refine fun s hrun => ⟨fun hpc => ?_, fun v hv htag => ?_⟩
  · exact step_of_fetch_error hrun (fetch_error_iff.2 (.inl ⟨hpc, rfl⟩))
  · obtain ⟨⟨-, hpc⟩, rfl⟩ := memRead_ok_iff.1 hv
    exact step_of_fetch_error hrun (fetch_error_iff.2 (.inr ⟨Int.ofNat_lt.1 hpc, htag, rfl⟩))

/-! A target past the memory. -/

/-- Jump sets `pc` to a target that is not negative, however large. -/
theorem exec_jump_of_toInt_eq {w : Word} {n : Nat} (h : w.toInt = n) : exec (.jump w) s = .next (s.setPc n) := by
  have hset : setPC w.toInt s = .ok (s.setPc n) := setPC_ok_iff.2 ⟨by omega, by simp [h]⟩
  simp [exec, execJump, hset]

/-- Settles O35: the Jump of O13 completes, and the next step is the fetch error of O14. -/
theorem targetsPastTheMemoryFaultAtTheFetch : Obligations.TargetsPastTheMemoryFaultAtTheFetch := by
  intro w n s hrun hm htarget hn
  constructor
  · rw [stepExecutesTheFetchedInstruction s _ hrun hm, exec_jump_of_toInt_eq htarget]
    rfl
  · exact (fetchErrorsEndTheRun { s with pc := n } hrun).1 hn

/-! What an instruction makes of `run`. -/

/-- The shape of the `_cases` lemmas: an error of the instruction's row, or an effect `P` that leaves `run` alone. `u` is the
state the error is raised in, which for IInput is not `s`. -/
theorem run_of_raise_or {i : Instr} {u : State} {P : Prop}
    (h : (∃ c, mayRaise s i c ∧ t = u.raise s.instrAddr c) ∨ P) (hP : P → t.run = s.run) :
    t.run = s.run ∨ ∃ c, mayRaise s i c ∧ t.run = .faulted ⟨s.instrAddr, c⟩ := by
  obtain ⟨c, hc, rfl⟩ | hp := h
  · exact .inr ⟨c, hc, rfl⟩
  · exact .inl (hP hp)

/-- An instruction other than Halt leaves `run` as it was, or records an error of its row of the table. -/
theorem run_of_exec {i : Instr} (hi : i ≠ .halt) (h : exec i s = .next t) :
    t.run = s.run ∨ ∃ c, mayRaise s i c ∧ t.run = .faulted ⟨s.instrAddr, c⟩ := by
  cases i with
  | add i j k => exact run_of_raise_or (execAdd_cases h) (by rintro ⟨a, b, -, -, -, rfl⟩; rfl)
  | mul i j k => exact run_of_raise_or (execMul_cases h) (by rintro ⟨a, b, -, -, -, rfl⟩; rfl)
  | decrement i => exact run_of_raise_or (execDecrement_cases h) (by rintro ⟨a, -, rfl⟩; rfl)
  | testEquals j k => exact run_of_raise_or (execTestEquals_cases h) (by rintro ⟨a, b, -, -, rfl⟩; rfl)
  | jump w => exact run_of_raise_or (execJump_cases h) (by rintro ⟨-, rfl⟩; rfl)
  | jumpIfTrue w =>
    refine run_of_raise_or (execJumpIfTrue_cases h) ?_
    rintro (⟨-, -, rfl⟩ | ⟨-, rfl⟩)
    · rfl
    · rfl
  | call w =>
    obtain ⟨c, hc, rfl⟩ | ⟨sp, -, -, ⟨hneg, rfl⟩ | ⟨-, rfl⟩⟩ := execCall_cases h
    · exact .inr ⟨c, hc, rfl⟩
    · exact .inr ⟨_, .inr (.inr ⟨hneg, rfl⟩), rfl⟩
    · exact .inl rfl
  | ret => exact run_of_raise_or (execRet_cases h) (by rintro ⟨sp, w, -, -, -, rfl⟩; rfl)
  | push i => exact run_of_raise_or (execPush_cases h) (by rintro ⟨sp, v, -, -, -, rfl⟩; rfl)
  | pop i => exact run_of_raise_or (execPop_cases h) (by rintro ⟨sp, v, -, -, -, rfl⟩; rfl)
  | move d src =>
    refine run_of_raise_or (execMove_cases h) ?_
    rintro ⟨v, -, ⟨i, -, -, rfl⟩ | ⟨i, off, a, -, -, -, rfl⟩⟩
    · rfl
    · rfl
  | echo d => exact run_of_raise_or (execEcho_cases h) (by rintro ⟨v, -, rfl⟩; rfl)
  | iinput a =>
    refine run_of_raise_or (execIinput_cases h) ?_
    rintro (rfl | ⟨line, n, -, -, -, rfl⟩)
    · rfl
    · rfl
  | halt => exact absurd rfl hi

theorem run_of_exec_eq_halted_iff {i : Instr} (hrun : s.run = .running) (h : exec i s = .next t) :
    t.run = .halted ↔ i = .halt := by
  by_cases hi : i = .halt
  · subst hi
    obtain rfl := execHalt_cases h
    simp
  · obtain hkept | ⟨c, -, hfault⟩ := run_of_exec hi h
    · simp [hkept, hrun, hi]
    · simp [hfault, hi]

/-- Settles O17: a fetch error ends the run in FAULTED, and of the instructions fetched only Halt ends it in HALTED. -/
theorem onlyHaltReachesHalted : Obligations.OnlyHaltReachesHalted := by
  intro s t hrun h
  rw [← fetch_ok_iff_memRead]
  obtain ⟨hended, -⟩ | ⟨-, c, hf, rfl⟩ | ⟨-, i, hf, hexec⟩ := step_cases h
  · exact absurd hrun hended
  · simp [hf]
  · rw [hf, Except.ok.injEq]
    exact run_of_exec_eq_halted_iff (s := s.advance) hrun hexec

end Sys2Proof.Machine

/-! PROOFS. The family 41_arith.md: Add, Mul and Decrement (R151 to R153), and TestEquals (R160, R161). -/

namespace Sys2Proof.Machine

open Sys2Proof

/-! Wrapped arithmetic (00_scope.md R19). -/

/-- `wrap32` answers an `i32` congruent to its argument. -/
theorem dvd_wrap32_toInt_sub (n : Int) : (2 : Int) ^ 32 ∣ (wrap32 n).toInt - n := by
  rw [wrap32, BitVec.toInt_ofInt]
  exact Int.dvd_bmod_sub_self

/-- One less than an `i32` leaves the range only at its lower end. -/
theorem wrap32_toInt_sub_one (a : Word) :
    (wrap32 (a.toInt - 1)).toInt = if a.toInt = -2147483648 then 2147483647 else a.toInt - 1 := by
  have hbounds := word_toInt_bounds a
  split
  next hmin =>
    rw [hmin]
    decide
  next hmin => exact wrap32_toInt (by omega) (by omega)

section

variable {s : State}

/-! The statements of an instruction that is executing. -/

/-- While the instruction at `p` executes, `pc` is `p + 1` and the fault record names `p` (10_state.md R40, R233). -/
theorem raise_instrAddr_of_pc {p : Nat} (hp : s.pc = p + 1) (c : Cause) :
    s.raise s.instrAddr c = { s with run := .faulted ⟨p, c⟩ } := by
  simp [State.raise, State.setRun, State.instrAddr, hp]

theorem readInt_of_readReg {i : Nat} {a : Word} (h : readReg i s = .ok (.int a)) (site : Site) :
    readInt i site s = .ok a.toInt := readInt_ok_iff.2 ⟨a, h, rfl⟩

theorem writeReg_of_lt {i : Nat} (h : i < s.cfg.regCount) (v : Value) : writeReg i v s = .ok (s.setReg i v) :=
  writeReg_ok_iff.2 ⟨h, rfl⟩

theorem writeReg_of_le {i : Nat} (h : s.cfg.regCount ≤ i) (v : Value) :
    writeReg i v s = .error (.outOfRange .reg i) := writeReg_error_iff.2 ⟨h, rfl⟩

/-! Add and Mul: one meaning, of the exact operation `f` on two Integer sources. -/

/-- Both sources are read, then `f` of their exact values is written through `wrap32`. -/
def execIntBinary (op : Opcode) (f : Int → Int → Int) (i j k : Nat) (s : State) : Result :=
  .next <|
    attempt s.instrAddr s (readInt j (.arg op 1) s) fun a =>
    attempt s.instrAddr s (readInt k (.arg op 2) s) fun b =>
    attempt s.instrAddr s (writeReg i (.int (wrap32 (f a b))) s) id

theorem exec_add (i j k : Nat) (s : State) : exec (.add i j k) s = execIntBinary .add (· + ·) i j k s := rfl

theorem exec_mul (i j k : Nat) (s : State) : exec (.mul i j k) s = execIntBinary .mul (· * ·) i j k s := rfl

section

variable {op : Opcode} {f : Int → Int → Int} {i j k : Nat} {a b : Word} {c : Cause}

theorem execIntBinary_of_lt (hj : readReg j s = .ok (.int a)) (hk : readReg k s = .ok (.int b))
    (hi : i < s.cfg.regCount) :
    execIntBinary op f i j k s = .next (s.setReg i (.int (wrap32 (f a.toInt b.toInt)))) := by
  simp [execIntBinary, readInt_of_readReg hj, readInt_of_readReg hk, writeReg_of_lt hi]

theorem execIntBinary_of_first_raises (hj : IntRaises s j (.arg op 1) c) :
    execIntBinary op f i j k s = .next (s.raise s.instrAddr c) := by
  simp [execIntBinary, readInt_error_iff.2 hj]

theorem execIntBinary_of_second_raises (hj : readReg j s = .ok (.int a)) (hk : IntRaises s k (.arg op 2) c) :
    execIntBinary op f i j k s = .next (s.raise s.instrAddr c) := by
  simp [execIntBinary, readInt_of_readReg hj, readInt_error_iff.2 hk]

theorem execIntBinary_of_le (hj : readReg j s = .ok (.int a)) (hk : readReg k s = .ok (.int b))
    (hi : s.cfg.regCount ≤ i) :
    execIntBinary op f i j k s = .next (s.raise s.instrAddr (.outOfRange .reg i)) := by
  simp [execIntBinary, readInt_of_readReg hj, readInt_of_readReg hk, writeReg_of_le hi]

/-- The result and the errors, in order, of an instruction with this meaning. -/
theorem resultAndErrors_of_execIntBinary {instr : Instr} (h : exec instr s = execIntBinary op f i j k s) :
    (∀ a b : Word, readReg j s = .ok (.int a) → readReg k s = .ok (.int b) → i < s.cfg.regCount →
      ∃ n : Word, (2 : Int) ^ 32 ∣ n.toInt - f a.toInt b.toInt ∧ exec instr s = .next (s.setReg i (.int n))) ∧
    ∀ p : Nat, s.pc = p + 1 →
      (∀ c, IntRaises s j (.arg op 1) c → exec instr s = .next { s with run := .faulted ⟨p, c⟩ }) ∧
      (∀ (a : Word) (c : Cause), readReg j s = .ok (.int a) → IntRaises s k (.arg op 2) c →
        exec instr s = .next { s with run := .faulted ⟨p, c⟩ }) ∧
      ∀ a b : Word, readReg j s = .ok (.int a) → readReg k s = .ok (.int b) → s.cfg.regCount ≤ i →
        exec instr s = .next { s with run := .faulted ⟨p, .outOfRange .reg i⟩ } := by
  rw [h]
  refine ⟨fun a b hj hk hi => ⟨_, dvd_wrap32_toInt_sub _, execIntBinary_of_lt hj hk hi⟩, fun p hp => ?_⟩
  simp only [← raise_instrAddr_of_pc hp]
  exact ⟨fun c => execIntBinary_of_first_raises, fun a c => execIntBinary_of_second_raises,
    fun a b => execIntBinary_of_le⟩

end

end

/-- Settles O27: Add is the meaning of two Integer sources with the exact sum. -/
theorem addResultAndErrors : Obligations.AddResultAndErrors :=
  fun i j k s => resultAndErrors_of_execIntBinary (exec_add i j k s)

/-- Settles O28: Mul is the meaning of two Integer sources with the exact product. -/
theorem mulResultAndErrors : Obligations.MulResultAndErrors :=
  fun i j k s => resultAndErrors_of_execIntBinary (exec_mul i j k s)

/-! Decrement. -/

section

variable {s : State} {i : Nat}

/-- The register that was read exists, so the write cannot fail. -/
theorem exec_decrement_of_int {a : Word} (h : readReg i s = .ok (.int a)) :
    exec (.decrement i) s = .next (s.setReg i (.int (wrap32 (a.toInt - 1)))) := by
  have hi : i < s.cfg.regCount := (readReg_ok_iff.1 h).1
  simp [exec, execDecrement, readInt_of_readReg h, writeReg_of_lt hi]

theorem exec_decrement_of_raises {c : Cause} (h : IntRaises s i (.arg .decrement 0) c) :
    exec (.decrement i) s = .next (s.raise s.instrAddr c) := by
  simp [exec, execDecrement, readInt_error_iff.2 h]

end

/-- Settles O29: the one Integer is read and written back, one less, through `wrap32`. -/
theorem decrementResultAndErrors : Obligations.DecrementResultAndErrors := by
  refine fun i s => ⟨fun a ha => ⟨_, wrap32_toInt_sub_one a, exec_decrement_of_int ha⟩, fun p c hp hc => ?_⟩
  rw [exec_decrement_of_raises hc, raise_instrAddr_of_pc hp]

/-! TestEquals. -/

/-- Integers are equal as words exactly when their values are. -/
theorem valueEq_int (n : Nat) (m k : Word) : valueEq n (.int m) (.int k) = decide (m.toInt = k.toInt) := by
  simp only [valueEq, BitVec.toInt_inj]

/-- Values of different tags are not equal, and no draw decides that. -/
theorem valueEq_of_tag_ne {a b : Value} (n : Nat) (h : a.tag ≠ b.tag) :
    valueEq n a b = false ∧ valueEqDraws a b = 0 := by
  cases a with
  | int m =>
    cases b with
    | int k => exact absurd rfl h
    | text _ | insn _ | empty => exact ⟨rfl, rfl⟩
  | text t =>
    cases b with
    | text u => exact absurd rfl h
    | int _ | insn _ | empty => exact ⟨rfl, rfl⟩
  | insn p =>
    cases b with
    | insn q => exact absurd rfl h
    | int _ | text _ | empty => exact ⟨rfl, rfl⟩
  | empty =>
    cases b with
    | empty => exact absurd rfl h
    | int _ | text _ | insn _ => exact ⟨rfl, rfl⟩

section

variable {s : State} {i j : Nat}

theorem exec_testEquals_of_reads {a b : Value} (hi : readReg i s = .ok a) (hj : readReg j s = .ok b) :
    exec (.testEquals i j) s =
      .next { s with flag := valueEq s.draws a b, draws := s.draws + valueEqDraws a b } := by
  simp [exec, execTestEquals, hi, hj, State.setFlag, State.addDraws]

theorem exec_testEquals_of_first_le (hi : s.cfg.regCount ≤ i) :
    exec (.testEquals i j) s = .next (s.raise s.instrAddr (.outOfRange .reg i)) := by
  have hread : readReg i s = .error (.outOfRange .reg i) := readReg_error_iff.2 ⟨hi, rfl⟩
  simp [exec, execTestEquals, hread]

theorem exec_testEquals_of_second_le (hi : i < s.cfg.regCount) (hj : s.cfg.regCount ≤ j) :
    exec (.testEquals i j) s = .next (s.raise s.instrAddr (.outOfRange .reg j)) := by
  have hfirst : readReg i s = .ok (Slots.get s.x i) := readReg_ok_iff.2 ⟨hi, rfl⟩
  have hsecond : readReg j s = .error (.outOfRange .reg j) := readReg_error_iff.2 ⟨hj, rfl⟩
  simp [exec, execTestEquals, hfirst, hsecond]

end

/-- Settles O30: the flag is `valueEq` of the two Values read, by tag; each missing register raises its index. -/
theorem testEqualsResultAndErrors : Obligations.TestEqualsResultAndErrors := by
  refine fun i j s => ⟨fun a b hi hj => ⟨_, _, exec_testEquals_of_reads hi hj, ?_, ?_, fun htag => ?_⟩, fun p hp => ?_⟩
  · rintro m k rfl rfl
    exact ⟨valueEq_int s.draws m k, rfl⟩
  · rintro t u rfl rfl
    exact ⟨rfl, rfl⟩
  · obtain ⟨heq, hdraws⟩ := valueEq_of_tag_ne s.draws htag
    exact ⟨heq, by rw [hdraws, Nat.add_zero]⟩
  · simp only [← raise_instrAddr_of_pc hp]
    exact ⟨exec_testEquals_of_first_le, exec_testEquals_of_second_le⟩

end Sys2Proof.Machine

/-! PROOFS. The family 42_control.md: Jump and JumpIfTrue (R171, R175), Call and Ret (R176, R177). -/

namespace Sys2Proof.Machine

open Sys2Proof

section

variable {s : State} {w : Word}

/-! Jump and JumpIfTrue. -/

theorem exec_jump_of_neg (h : w.toInt < 0) :
    exec (.jump w) s = .next (s.raise s.instrAddr (.invalidArgument w.toInt)) := by
  have hset : setPC w.toInt s = .error (.invalidArgument w.toInt) := setPC_error_iff.2 ⟨h, rfl⟩
  simp [exec, execJump, hset]

/-- Taken, JumpIfTrue is Jump. -/
theorem exec_jumpIfTrue_of_flag (h : s.flag = true) : exec (.jumpIfTrue w) s = exec (.jump w) s := by
  simp [exec, execJumpIfTrue, execJump, h]

theorem exec_jumpIfTrue_of_not_flag (h : s.flag = false) : exec (.jumpIfTrue w) s = .next s := by
  simp [exec, execJumpIfTrue, h]

/-! The statements of Call and Ret. -/

theorem readStackPtr_of_readReg {sp : Word} (h : readReg s.cfg.spIndex s = .ok (.int sp)) (op : Opcode) :
    readStackPtr op s = .ok sp.toInt := readInt_of_readReg h _

/-- The stack register that was read exists, so it can be written in every state with the same configuration. -/
theorem writeStackPtr_of_readReg {sp : Word} {u : State} (h : readReg s.cfg.spIndex s = .ok (.int sp))
    (hcfg : u.cfg = s.cfg) (n : Int) : writeStackPtr n u = .ok (u.setReg s.cfg.spIndex (.int (wrap32 n))) := by
  have hlt : s.cfg.spIndex < s.cfg.regCount := (readReg_ok_iff.1 h).1
  exact writeStackPtr_ok_iff.2 ⟨by rw [hcfg]; exact hlt, by rw [hcfg]⟩

/-! Call. -/

@[simp] theorem callPushed_instrAddr (s : State) (sp : Word) : (callPushed s sp).instrAddr = s.instrAddr := rfl

/-- Once its return address is stored and the stack register decremented, Call is Jump. -/
theorem exec_call_of_slot {sp : Word} (h : readReg s.cfg.spIndex s = .ok (.int sp))
    (hm : 0 ≤ sp.toInt ∧ sp.toInt < s.cfg.memSize) : exec (.call w) s = exec (.jump w) (callPushed s sp) := by
  have hstore : memWrite sp.toInt (.int (wrap32 s.pc)) s = .ok (s.setSlot sp.toInt.toNat (.int (wrap32 s.pc))) :=
    memWrite_ok_iff.2 ⟨hm, rfl⟩
  have hdec : writeStackPtr (sp.toInt - 1) (s.setSlot sp.toInt.toNat (.int (wrap32 s.pc))) = .ok (callPushed s sp) :=
    writeStackPtr_of_readReg h (State.setSlot_cfg s _ _) _
  simp [exec, execCall, execJump, readStackPtr_of_readReg h, hstore, hdec]

theorem exec_call_of_raises {c : Cause} (h : IntRaises s s.cfg.spIndex (.sp .call) c) :
    exec (.call w) s = .next (s.raise s.instrAddr c) := by
  simp [exec, execCall, readStackPtr_error_iff.2 h]

theorem exec_call_of_no_slot {sp : Word} (h : readReg s.cfg.spIndex s = .ok (.int sp))
    (hm : ¬(0 ≤ sp.toInt ∧ sp.toInt < s.cfg.memSize)) :
    exec (.call w) s = .next (s.raise s.instrAddr (.outOfRange .mem sp.toInt)) := by
  have hstore : memWrite sp.toInt (.int (wrap32 s.pc)) s = .error (.outOfRange .mem sp.toInt) :=
    memWrite_error_iff.2 ⟨hm, rfl⟩
  simp [exec, execCall, readStackPtr_of_readReg h, hstore]

/-! Ret. -/

theorem exec_ret_of_target {sp : Word} {n : Nat} (h : readReg s.cfg.spIndex s = .ok (.int sp))
    (hv : memRead (sp.toInt + 1) s = .ok (.int w)) (hn : w.toInt = n) :
    exec .ret s = .next ((s.setPc n).setReg s.cfg.spIndex (.int (wrap32 (sp.toInt + 1)))) := by
  have hset : setPC w.toInt s = .ok (s.setPc n) := setPC_ok_iff.2 ⟨by omega, by simp [hn]⟩
  have hinc := writeStackPtr_of_readReg h (State.setPc_cfg s n) (sp.toInt + 1)
  simp [exec, execRet, readStackPtr_of_readReg h, hv, asInt, hset, hinc]

theorem exec_ret_of_raises {c : Cause} (h : IntRaises s s.cfg.spIndex (.sp .ret) c) :
    exec .ret s = .next (s.raise s.instrAddr c) := by
  simp [exec, execRet, readStackPtr_error_iff.2 h]

theorem exec_ret_of_no_slot {sp : Word} (h : readReg s.cfg.spIndex s = .ok (.int sp))
    (hm : ¬(0 ≤ sp.toInt + 1 ∧ sp.toInt + 1 < s.cfg.memSize)) :
    exec .ret s = .next (s.raise s.instrAddr (.outOfRange .mem (sp.toInt + 1))) := by
  have hload : memRead (sp.toInt + 1) s = .error (.outOfRange .mem (sp.toInt + 1)) := memRead_error_iff.2 ⟨hm, rfl⟩
  simp [exec, execRet, readStackPtr_of_readReg h, hload]

theorem exec_ret_of_target_not_int {sp : Word} {v : Value} (h : readReg s.cfg.spIndex s = .ok (.int sp))
    (hv : memRead (sp.toInt + 1) s = .ok v) (htag : v.tag ≠ .int) :
    exec .ret s = .next (s.raise s.instrAddr (.typeMismatch .retTarget v.tag)) := by
  have hint : asInt v .retTarget = .error (.typeMismatch .retTarget v.tag) := asInt_error_iff.2 ⟨htag, rfl⟩
  simp [exec, execRet, readStackPtr_of_readReg h, hv, hint]

theorem exec_ret_of_target_neg {sp : Word} (h : readReg s.cfg.spIndex s = .ok (.int sp))
    (hv : memRead (sp.toInt + 1) s = .ok (.int w)) (hneg : w.toInt < 0) :
    exec .ret s = .next (s.raise s.instrAddr (.invalidArgument w.toInt)) := by
  have hset : setPC w.toInt s = .error (.invalidArgument w.toInt) := setPC_error_iff.2 ⟨hneg, rfl⟩
  simp [exec, execRet, readStackPtr_of_readReg h, hv, asInt, hset]

end

/-- Settles O31: `setPC` succeeds on every target that is not negative, and raises on the others. -/
theorem jumpResultAndErrors : Obligations.JumpResultAndErrors := by
  refine fun w s => ⟨fun n hn => exec_jump_of_toInt_eq hn, fun p hp hneg => ?_⟩
  rw [exec_jump_of_neg hneg, raise_instrAddr_of_pc hp]

/-- Settles O32: not taken it changes nothing, and taken it is the Jump of O31. -/
theorem jumpIfTrueResultAndErrors : Obligations.JumpIfTrueResultAndErrors := by
  refine fun w s => ⟨exec_jumpIfTrue_of_not_flag, fun hflag => ?_⟩
  rw [exec_jumpIfTrue_of_flag hflag]
  exact jumpResultAndErrors w s

/-- Settles O33: the return address and the decremented pointer fit an `i32`, and what follows the two writes is the
Jump of O31 from `callPushed`. -/
theorem callResultAndErrors : Obligations.CallResultAndErrors := by
  intro p w s hp hpc
  refine ⟨fun sp hsp h0 hlt => ?_, fun c hc => ?_, fun sp hsp hm => ?_⟩
  · have hsp_bounds := word_toInt_bounds sp
    have hra : (wrap32 s.pc).toInt = p + 1 := by rw [wrap32_toInt (by omega) (by omega)]; omega
    have hsp' : (wrap32 (sp.toInt - 1)).toInt = sp.toInt - 1 := wrap32_toInt (by omega) (by omega)
    obtain ⟨hjump, hneg⟩ := jumpResultAndErrors w (callPushed s sp)
    rw [exec_call_of_slot hsp ⟨h0, hlt⟩]
    exact ⟨_, _, hra, hsp', hjump, hneg p hp⟩
  · rw [exec_call_of_raises hc, raise_instrAddr_of_pc hp]
  · rw [exec_call_of_no_slot hsp hm, raise_instrAddr_of_pc hp]

/-- Settles O34: the slot above the stack register's is in the memory, so the incremented pointer fits an `i32`; each
error is that of one statement, raised before anything is written. -/
theorem retResultAndErrors : Obligations.RetResultAndErrors := by
  rintro s ⟨-, hsize, -, -⟩
  refine ⟨fun n w sp hsp hv hn => ?_, fun p hp => ?_⟩
  · obtain ⟨⟨h0, hlt⟩, -⟩ := memRead_ok_iff.1 hv
    have hsp' : (wrap32 (sp.toInt + 1)).toInt = sp.toInt + 1 := by
      unfold maxI32 at hsize
      exact wrap32_toInt (by omega) (by omega)
    exact ⟨_, hsp', exec_ret_of_target hsp hv hn⟩
  · simp only [← raise_instrAddr_of_pc hp]
    exact ⟨fun c => exec_ret_of_raises, fun sp hsp => ⟨exec_ret_of_no_slot hsp,
      fun v => exec_ret_of_target_not_int hsp, fun w => exec_ret_of_target_neg hsp⟩⟩

end Sys2Proof.Machine

/-! PROOFS. The family 43_stack.md: Push (R190) and Pop (R192). -/

namespace Sys2Proof.Machine

open Sys2Proof

/-- Of two writes to one register the later stands. -/
@[simp] theorem State.setReg_setReg_self (s : State) (i : Nat) (v w : Value) :
    (s.setReg i v).setReg i w = s.setReg i w := by
  simp [State.setReg]

/-- Under a legal configuration the address of an existing slot is an `i32` (R194). -/
theorem wrap32_toInt_of_memRead {a : Int} {v : Value} {s : State} (hs : s.cfg.valid) (h : memRead a s = .ok v) :
    (wrap32 a).toInt = a := by
  obtain ⟨-, hsize, -, -⟩ := hs
  obtain ⟨⟨h0, hlt⟩, -⟩ := memRead_ok_iff.1 h
  unfold maxI32 at hsize
  exact wrap32_toInt (by omega) (by omega)

/-- One less than an `i32` that is not negative is an `i32` (R194). -/
theorem wrap32_toInt_sub_one_of_nonneg {w : Word} (h : 0 ≤ w.toInt) : (wrap32 (w.toInt - 1)).toInt = w.toInt - 1 := by
  rw [wrap32_toInt_sub_one, if_neg (by omega)]

section

variable {s : State} {i : Nat} {sp : Word} {v : Value} {c : Cause}

/-! Push. -/

theorem exec_push_of_slot (h : readReg s.cfg.spIndex s = .ok (.int sp)) (hv : readReg i s = .ok v)
    (hm : 0 ≤ sp.toInt ∧ sp.toInt < s.cfg.memSize) :
    exec (.push i) s =
      .next ((s.setSlot sp.toInt.toNat v).setReg s.cfg.spIndex (.int (wrap32 (sp.toInt - 1)))) := by
  have hstore : memWrite sp.toInt v s = .ok (s.setSlot sp.toInt.toNat v) := memWrite_ok_iff.2 ⟨hm, rfl⟩
  have hdec := writeStackPtr_of_readReg h (State.setSlot_cfg s sp.toInt.toNat v) (sp.toInt - 1)
  simp [exec, execPush, readStackPtr_of_readReg h, hv, hstore, hdec]

theorem exec_push_of_raises (h : IntRaises s s.cfg.spIndex (.sp .push) c) :
    exec (.push i) s = .next (s.raise s.instrAddr c) := by
  simp [exec, execPush, readStackPtr_error_iff.2 h]

theorem exec_push_of_operand_le (h : readReg s.cfg.spIndex s = .ok (.int sp)) (hi : s.cfg.regCount ≤ i) :
    exec (.push i) s = .next (s.raise s.instrAddr (.outOfRange .reg i)) := by
  have hread : readReg i s = .error (.outOfRange .reg i) := readReg_error_iff.2 ⟨hi, rfl⟩
  simp [exec, execPush, readStackPtr_of_readReg h, hread]

theorem exec_push_of_no_slot (h : readReg s.cfg.spIndex s = .ok (.int sp)) (hi : i < s.cfg.regCount)
    (hm : ¬(0 ≤ sp.toInt ∧ sp.toInt < s.cfg.memSize)) :
    exec (.push i) s = .next (s.raise s.instrAddr (.outOfRange .mem sp.toInt)) := by
  have hread : readReg i s = .ok (Slots.get s.x i) := readReg_ok_iff.2 ⟨hi, rfl⟩
  have hstore : memWrite sp.toInt (Slots.get s.x i) s = .error (.outOfRange .mem sp.toInt) :=
    memWrite_error_iff.2 ⟨hm, rfl⟩
  simp [exec, execPush, readStackPtr_of_readReg h, hread, hstore]

/-! Pop. -/

theorem exec_pop_of_slot (h : readReg s.cfg.spIndex s = .ok (.int sp)) (hv : memRead (sp.toInt + 1) s = .ok v)
    (hi : i < s.cfg.regCount) :
    exec (.pop i) s = .next ((s.setReg i v).setReg s.cfg.spIndex (.int (wrap32 (sp.toInt + 1)))) := by
  have hinc := writeStackPtr_of_readReg h (State.setReg_cfg s i v) (sp.toInt + 1)
  simp [exec, execPop, readStackPtr_of_readReg h, hv, writeReg_of_lt hi, hinc]

theorem exec_pop_of_raises (h : IntRaises s s.cfg.spIndex (.sp .pop) c) :
    exec (.pop i) s = .next (s.raise s.instrAddr c) := by
  simp [exec, execPop, readStackPtr_error_iff.2 h]

theorem exec_pop_of_no_slot (h : readReg s.cfg.spIndex s = .ok (.int sp))
    (hm : ¬(0 ≤ sp.toInt + 1 ∧ sp.toInt + 1 < s.cfg.memSize)) :
    exec (.pop i) s = .next (s.raise s.instrAddr (.outOfRange .mem (sp.toInt + 1))) := by
  have hload : memRead (sp.toInt + 1) s = .error (.outOfRange .mem (sp.toInt + 1)) := memRead_error_iff.2 ⟨hm, rfl⟩
  simp [exec, execPop, readStackPtr_of_readReg h, hload]

theorem exec_pop_of_operand_le (h : readReg s.cfg.spIndex s = .ok (.int sp))
    (hm : 0 ≤ sp.toInt + 1 ∧ sp.toInt + 1 < s.cfg.memSize) (hi : s.cfg.regCount ≤ i) :
    exec (.pop i) s = .next (s.raise s.instrAddr (.outOfRange .reg i)) := by
  have hload : memRead (sp.toInt + 1) s = .ok (Slots.get s.mem (sp.toInt + 1).toNat) := memRead_ok_iff.2 ⟨hm, rfl⟩
  simp [exec, execPop, readStackPtr_of_readReg h, hload, writeReg_of_le hi]

end

/-- Settles O37: the slot written exists, so the decremented pointer fits an `i32`; the operand is read before either
write, and each error is that of one statement. -/
theorem pushResultAndErrors : Obligations.PushResultAndErrors := by
  refine fun i s => ⟨fun sp v hsp hv h0 hlt => ?_, fun p hp => ?_⟩
  · exact ⟨_, wrap32_toInt_sub_one_of_nonneg h0, exec_push_of_slot hsp hv ⟨h0, hlt⟩⟩
  · simp only [← raise_instrAddr_of_pc hp]
    exact ⟨fun c => exec_push_of_raises, fun sp hsp => ⟨exec_push_of_operand_le hsp, exec_push_of_no_slot hsp⟩⟩

/-- Settles O38: the slot read exists, so the incremented pointer fits an `i32`; it is written last, over a Value popped
into the stack register. -/
theorem popResultAndErrors : Obligations.PopResultAndErrors := by
  refine fun i s hs => ⟨fun sp v hsp hv hi => ?_, fun p hp => ?_⟩
  · have hpop := exec_pop_of_slot hsp hv hi
    refine ⟨_, wrap32_toInt_of_memRead hs hv, hpop, ?_⟩
    rintro rfl
    rw [hpop, State.setReg_setReg_self]
  · simp only [← raise_instrAddr_of_pc hp]
    exact ⟨fun c => exec_pop_of_raises, fun sp hsp => ⟨exec_pop_of_no_slot hsp,
      fun h0 hlt => exec_pop_of_operand_le hsp ⟨h0, hlt⟩⟩⟩

end Sys2Proof.Machine

/-! PROOFS. The family 44_move.md: Move (R200). -/

namespace Sys2Proof.Machine

open Sys2Proof

section

variable {s : State} {d : Loc} {src : Src} {v : Value} {c : Cause}

/-- Once the source is read, Move is the write of its Value to the destination. -/
theorem exec_move_of_holds (h : SrcHolds s src v) :
    exec (.move d src) s = .next (attempt s.instrAddr s (resolveWrite d v (.base .move 0) s) fun t => t) := by
  simp [exec, execMove, resolveRead_ok_iff.2 h]

theorem exec_move_reg_of_lt {i : Nat} (h : SrcHolds s src v) (hi : i < s.cfg.regCount) :
    exec (.move (.reg i) src) s = .next (s.setReg i v) := by
  have hw : resolveWrite (.reg i) v (.base .move 0) s = .ok (s.setReg i v) :=
    resolveWrite_ok_iff.2 (.inl ⟨i, rfl, hi, rfl⟩)
  simp [exec_move_of_holds h, hw]

theorem exec_move_ind_of_slot {i : Nat} {off : Int} {b : Word} (h : SrcHolds s src v)
    (hb : readReg i s = .ok (.int b)) (hm : 0 ≤ b.toInt + off ∧ b.toInt + off < s.cfg.memSize) :
    exec (.move (.ind i off) src) s = .next (s.setSlot (b.toInt + off).toNat v) := by
  have hea : effAddr i off (.base .move 0) s = .ok (b.toInt + off) := effAddr_ok_iff.2 ⟨b, hb, rfl⟩
  have hw : resolveWrite (.ind i off) v (.base .move 0) s = .ok (s.setSlot (b.toInt + off).toNat v) :=
    resolveWrite_ok_iff.2 (.inr ⟨i, off, _, rfl, hea, hm, rfl⟩)
  simp [exec_move_of_holds h, hw]

theorem exec_move_of_source_raises {l : Loc} (h : LocRaises s l (.base .move 1) c) :
    exec (.move d (.loc l)) s = .next (s.raise s.instrAddr c) := by
  have hr : resolveRead (.loc l) (.base .move 1) s = .error c := resolveRead_error_iff.2 ⟨l, rfl, h⟩
  simp [exec, execMove, hr]

theorem exec_move_of_destination_raises (h : SrcHolds s src v) (hd : LocRaises s d (.base .move 0) c) :
    exec (.move d src) s = .next (s.raise s.instrAddr c) := by
  simp [exec_move_of_holds h, resolveWrite_error_iff.2 hd]

end

/-- Settles O41: the source is read first, so its errors need nothing of the destination; the destination's come of the
one write, and so does the effect. -/
theorem moveResultAndErrors : Obligations.MoveResultAndErrors := by
  refine fun d src s => ⟨fun v hv => ⟨fun i => exec_move_reg_of_lt hv, fun i off b hb h0 hlt => ?_⟩, fun p c hp => ?_⟩
  · exact exec_move_ind_of_slot hv hb ⟨h0, hlt⟩
  · rw [← raise_instrAddr_of_pc hp]
    refine ⟨?_, fun v => exec_move_of_destination_raises⟩
    rintro l rfl
    exact exec_move_of_source_raises

end Sys2Proof.Machine

/-! PROOFS. The family 45_io_system.md: IInput (R215) and Halt (R216). -/

namespace Sys2Proof.Machine

open Sys2Proof

section

variable {s : State} {a n : Word} {line : Text}

theorem exec_iinput_of_fail (h : s.nextAnswer = .fail) :
    exec (.iinput a) s = .next (s.consumeAnswer.setFlag false) := by
  simp [exec, execIinput, h]

theorem exec_iinput_of_parse_none (h : s.nextAnswer = .line line) (hparse : parseInt s.cfg.parser line = none) :
    exec (.iinput a) s = .next (s.consumeAnswer.setFlag false) := by
  simp [exec, execIinput, h, hparse]

/-- Once its line is parsed, IInput is the store of the Integer, in the state with the answer consumed. -/
theorem exec_iinput_of_parse_some (h : s.nextAnswer = .line line) (hparse : parseInt s.cfg.parser line = some n) :
    exec (.iinput a) s =
      .next (attempt s.instrAddr s.consumeAnswer (memWrite a.toInt (.int n) s.consumeAnswer) (·.setFlag true)) := by
  simp [exec, execIinput, h, hparse]

theorem exec_iinput_of_slot (h : s.nextAnswer = .line line) (hparse : parseInt s.cfg.parser line = some n)
    (hm : 0 ≤ a.toInt ∧ a.toInt < s.cfg.memSize) :
    exec (.iinput a) s = .next ((s.consumeAnswer.setSlot a.toInt.toNat (.int n)).setFlag true) := by
  have hstore : memWrite a.toInt (.int n) s.consumeAnswer = .ok (s.consumeAnswer.setSlot a.toInt.toNat (.int n)) :=
    memWrite_ok_iff.2 ⟨hm, rfl⟩
  simp [exec_iinput_of_parse_some h hparse, hstore]

theorem exec_iinput_of_no_slot (h : s.nextAnswer = .line line) (hparse : parseInt s.cfg.parser line = some n)
    (hm : ¬(0 ≤ a.toInt ∧ a.toInt < s.cfg.memSize)) :
    exec (.iinput a) s = .next (s.consumeAnswer.raise s.instrAddr (.outOfRange .mem a.toInt)) := by
  have hstore : memWrite a.toInt (.int n) s.consumeAnswer = .error (.outOfRange .mem a.toInt) :=
    memWrite_error_iff.2 ⟨hm, rfl⟩
  simp [exec_iinput_of_parse_some h hparse, hstore]

/-- The answer is consumed before the store: an error of IInput leaves it consumed. -/
theorem consumeAnswer_raise_instrAddr_of_pc {p : Nat} (hp : s.pc = p + 1) (c : Cause) :
    s.consumeAnswer.raise s.instrAddr c = { s with inPos := s.inPos + 1, run := .faulted ⟨p, c⟩ } :=
  raise_instrAddr_of_pc (s := s.consumeAnswer) hp c

theorem exec_halt (s : State) : exec .halt s = .next (s.setRun .halted) := rfl

end

/-- Settles O44: the host's answer and the parser decide between clearing the flag and the store, and the store alone
looks at the address. -/
theorem iInputResultAndErrors : Obligations.IInputResultAndErrors := by
  refine fun a s => ⟨exec_iinput_of_fail, fun line hline => ⟨exec_iinput_of_parse_none hline, fun n hn => ⟨?_, ?_⟩⟩⟩
  · exact fun h0 hlt => exec_iinput_of_slot hline hn ⟨h0, hlt⟩
  · intro p hp hm
    rw [exec_iinput_of_no_slot hline hn hm, consumeAnswer_raise_instrAddr_of_pc hp]

/-- Settles O46: the step is that of O13, so Halt starts with `pc` already incremented. -/
theorem haltResult : Obligations.HaltResult := by
  refine fun s => ⟨exec_halt s, fun hrun hm => ?_⟩
  rw [stepExecutesTheFetchedInstruction s _ hrun hm, exec_halt]
  rfl

end Sys2Proof.Machine

/-! PROOFS. The family 60_exceptions.md: the configuration check (R231), and what a malformed instruction does to the
load (R232). -/

namespace Sys2Proof.Machine

open Sys2Proof

/-! The load of a malformed image. -/

section

variable {a : Nat} {item : ImageItem} {rest : Image} {s : State}

theorem load_cons_of_value_error {e : ArgError} (h : item.value = .error e) :
    load ((a, item) :: rest) s = .fault (.argumentError e) := by
  simp [load, h]

/-- A validated item with a slot in the memory is placed there, and the load goes on; without one it aborts the load. -/
theorem load_cons_of_value_ok {v : Value} (h : item.value = .ok v) :
    load ((a, item) :: rest) s =
      if a < s.cfg.memSize then load rest (s.setSlot a v) else .fault (.imageOutOfRange a) := by
  split
  · have hstore : memWrite a v s = .ok (s.setSlot a v) := memWrite_ok_iff.2 ⟨by omega, rfl⟩
    simp [load, h, hstore]
  · have hstore : memWrite a v s = .error (.outOfRange .mem a) := memWrite_error_iff.2 ⟨by omega, rfl⟩
    simp [load, h, hstore]

end

/-- The load places items in order: it reaches the malformed one, or an earlier item has aborted it. -/
theorem load_of_malformed_mem {image : Image} {a : Nat} {item : ImageItem} {e : ArgError} (hmem : (a, item) ∈ image)
    (hbad : item.value = .error e) (s : State) : ∃ f, load image s = .fault f := by
  induction image generalizing s with
  | nil => cases hmem
  | cons q rest ih =>
    obtain rfl | hrest := List.mem_cons.1 hmem
    · exact ⟨_, load_cons_of_value_error hbad⟩
    · cases hv : q.2.value with
      | error e' => exact ⟨_, load_cons_of_value_error hv⟩
      | ok v =>
        rw [load_cons_of_value_ok hv]
        split
        · exact ih hrest _
        · exact ⟨_, rfl⟩

/-! The configuration check. -/

section

variable {m r : Int} {sp : Nat} {p : Parser} {script : List Answer} {image : Image}

theorem boot_of_memSize_out (hm : m < 1 ∨ 2147483647 < m) :
    boot m r sp p script image = .fault (.configurationError .memSize m) :=
  if_pos hm

theorem boot_of_regCount_out (hm : ¬(m < 1 ∨ 2147483647 < m)) (hr : r < sp + 1 ∨ 2147483647 < r) :
    boot m r sp p script image = .fault (.configurationError .regCount r) :=
  (if_neg hm).trans (if_pos hr)

theorem boot_of_in_range (hm : ¬(m < 1 ∨ 2147483647 < m)) (hr : ¬(r < sp + 1 ∨ 2147483647 < r)) :
    boot m r sp p script image = load image (State.resetWith ⟨m.toNat, r.toNat, sp, p⟩ script) :=
  (if_neg hm).trans (if_neg hr)

end

/-- Settles O26: the boot faults in its configuration check, or else in the load. -/
theorem malformedInstructionsAbortTheLoad : Obligations.MalformedInstructionsAbortTheLoad := by
  intro m r sp p script image a item e hmem hbad
  by_cases hm : m < 1 ∨ 2147483647 < m
  · exact ⟨_, boot_of_memSize_out hm⟩
  · by_cases hr : r < sp + 1 ∨ 2147483647 < r
    · exact ⟨_, boot_of_regCount_out hm hr⟩
    · rw [boot_of_in_range hm hr]
      exact load_of_malformed_mem hmem hbad _

/-- Settles O23: the check looks at the memory size first, so that one is reported where both parameters are out of
range; an empty load answers the reset state of the configuration. -/
theorem bootChecksTheConfiguration : Obligations.BootChecksTheConfiguration := by
  intro m r sp p script image
  refine ⟨fun hm _ _ => boot_of_memSize_out hm, fun hm hm' hr => boot_of_regCount_out (by omega) hr,
    fun hm _ => .inl (boot_of_memSize_out hm), fun hm hm' hr hr' => ?_⟩
  have hboot : boot m r sp p script [] = .next (State.resetWith ⟨m.toNat, r.toNat, sp, p⟩ script) :=
    boot_of_in_range (by omega) (by omega)
  exact ⟨_, hboot, Int.toNat_of_nonneg (by omega), Int.toNat_of_nonneg (by omega), rfl⟩

end Sys2Proof.Machine

/-! PROOFS. The family other, the descriptors and records: a written descriptor reads back (R95), what a form discards
(R97), and the decoder against the encoder (R101, R103 to R107). -/

namespace Sys2Proof

/-! Written descriptors. -/

/-- The three fields of a written descriptor occupy disjoint bits, so the word is their weighted sum. -/
theorem descWord_toNat {i : Nat} (hi : i ≤ 255) (ind : Bool) (off : Int) :
    (descWord i ind off).toNat = (ind.toNat * 65536 + (off % 65536).toNat) * 256 + i := by
  have hoff : (off % 65536).toNat < 2 ^ 16 := by omega
  have hindirect : ((if ind then 1#32 else 0#32) <<< 24).toNat = ind.toNat <<< 24 := by cases ind <;> rfl
  have hoffset : ((BitVec.ofInt 32 off &&& 0xFFFF#32) <<< 8).toNat = (off % 65536).toNat <<< 8 := by
    rw [BitVec.toNat_shiftLeft, word_and_low16_toNat, BitVec.toNat_ofInt, Nat.shiftLeft_eq, Nat.shiftLeft_eq]
    omega
  have hindex : (BitVec.ofNat 32 i).toNat = i := by
    rw [BitVec.toNat_ofNat]
    exact Nat.mod_eq_of_lt (by omega)
  calc (descWord i ind off).toNat
    _ = ind.toNat <<< 24 ||| (off % 65536).toNat <<< 8 ||| i := by
      rw [descWord, BitVec.toNat_or, BitVec.toNat_or, hindirect, hoffset, hindex]
    _ = (ind.toNat <<< 16 ||| (off % 65536).toNat) <<< 8 ||| i := by
      rw [Nat.shiftLeft_or_distrib, ← Nat.shiftLeft_add]
    _ = (ind.toNat <<< 16 + (off % 65536).toNat) <<< 8 + i := by
      rw [← Nat.shiftLeft_add_eq_or_of_lt hoff, ← Nat.shiftLeft_add_eq_or_of_lt (show i < 2 ^ 8 by omega)]
    _ = (ind.toNat * 65536 + (off % 65536).toNat) * 256 + i := by
      rw [Nat.shiftLeft_eq _ 8, Nat.shiftLeft_eq _ 16]

section

variable {i : Nat} {ind : Bool} {off : Int}

theorem descIndex_descWord (hi : i ≤ 255) : descIndex (descWord i ind off) = i := by
  rw [descIndex_eq_mod, descWord_toNat hi]
  omega

theorem descIndirect_descWord (hi : i ≤ 255) : descIndirect (descWord i ind off) = ind := by
  rw [Bool.eq_iff_iff, descIndirect_eq_true_iff, descWord_toNat hi]
  cases ind with
  | false => simp; omega
  | true => simp; omega

theorem descOffset_descWord (hi : i ≤ 255) (hmin : -32768 ≤ off) (hmax : off ≤ 32767) :
    descOffset (descWord i ind off) = off := by
  have hfield : (descWord i ind off).extractLsb' 8 16 = BitVec.ofInt 16 off := by
    apply BitVec.eq_of_toNat_eq
    rw [BitVec.extractLsb'_toNat, descWord_toNat hi, BitVec.toNat_ofInt, Nat.shiftRight_eq_div_pow]
    omega
  rw [descOffset, hfield, BitVec.toInt_ofInt]
  exact Int.bmod_eq_of_le (by omega) (by omega)

end

/-- Settles O1, field by field, from the bits the fields occupy. -/
theorem descriptorFieldsRoundTrip : Obligations.DescriptorFieldsRoundTrip :=
  fun _ _ _ hi hmin hmax => ⟨descIndex_descWord hi, descIndirect_descWord hi, descOffset_descWord hi hmin hmax⟩

/-! Operand forms. -/

theorem descForm_of_direct {d : Word} (h : descIndirect d = false) : descForm d = .reg (descIndex d) := by
  simp [descForm, h]

theorem descForm_of_indirect {d : Word} (h : descIndirect d = true) :
    descForm d = .ind (descIndex d) (descOffset d) := by
  simp [descForm, h]

theorem descIndex_congr {d e : Word} (h : d.toNat % 2 ^ 8 = e.toNat % 2 ^ 8) : descIndex d = descIndex e := by
  rw [descIndex_eq_mod, descIndex_eq_mod]
  exact h

/-- The offset field lies below bit 24. -/
theorem descOffset_congr {d e : Word} (h : d.toNat % 2 ^ 24 = e.toNat % 2 ^ 24) : descOffset d = descOffset e := by
  have hfield : d.extractLsb' 8 16 = e.extractLsb' 8 16 := by
    apply BitVec.eq_of_toNat_eq
    rw [BitVec.extractLsb'_toNat, BitVec.extractLsb'_toNat, Nat.shiftRight_eq_div_pow, Nat.shiftRight_eq_div_pow]
    omega
  rw [descOffset, descOffset, hfield]

/-- Settles O3: a direct form holds the index alone, an indirect one the index and the offset. -/
theorem descriptorFormDiscardsIgnoredBits : Obligations.DescriptorFormDiscardsIgnoredBits := by
  refine fun d e => ⟨fun hd he h => ?_, fun hd he h => ?_⟩
  · rw [descForm_of_direct hd, descForm_of_direct he, descIndex_congr h]
  · rw [descForm_of_indirect hd, descForm_of_indirect he, descIndex_congr (d := d) (e := e) (by omega),
      descOffset_congr h]

/-! The record of a well-formed instruction. -/

theorem regIndexOk_iff {i : Nat} : regIndexOk i = true ↔ i ≤ 255 := by simp [regIndexOk]

theorem offsetOk_iff {off : Int} : offsetOk off = true ↔ -32768 ≤ off ∧ off ≤ 32767 := by simp [offsetOk]

section

variable {i j k : Nat}

theorem descIndirect_encodeReg (hi : regIndexOk i = true) : descIndirect (encodeReg i) = false :=
  descIndirect_descWord (regIndexOk_iff.1 hi)

theorem encodeReg_toNat_mod (hi : regIndexOk i = true) : (encodeReg i).toNat % 256 = i := by
  rw [← descIndex_eq_mod]
  exact descIndex_descWord (regIndexOk_iff.1 hi)

/-! A written direct descriptor reads as its register wherever R98 asks for one. -/

theorem arity1_encodeReg {op : Opcode} {f : Nat → Instr} (hi : regIndexOk i = true) :
    arity1 op (fun a => do return f (← argDirect op 0 a)) [.descriptor (encodeReg i)] = .ok (f i) := by
  rw [arity1_direct (descIndirect_encodeReg hi), encodeReg_toNat_mod hi]

theorem arity2_encodeReg {op : Opcode} {f : Nat → Nat → Instr} (hi : regIndexOk i = true)
    (hj : regIndexOk j = true) :
    arity2 op (fun a b => do return f (← argDirect op 0 a) (← argDirect op 1 b))
      [.descriptor (encodeReg i), .descriptor (encodeReg j)] = .ok (f i j) := by
  rw [arity2_direct (descIndirect_encodeReg hi) (descIndirect_encodeReg hj), encodeReg_toNat_mod hi,
    encodeReg_toNat_mod hj]

theorem arity3_encodeReg {op : Opcode} {f : Nat → Nat → Nat → Instr} (hi : regIndexOk i = true)
    (hj : regIndexOk j = true) (hk : regIndexOk k = true) :
    arity3 op (fun a b c => do return f (← argDirect op 0 a) (← argDirect op 1 b) (← argDirect op 2 c))
      [.descriptor (encodeReg i), .descriptor (encodeReg j), .descriptor (encodeReg k)] = .ok (f i j k) := by
  rw [arity3_direct (descIndirect_encodeReg hi) (descIndirect_encodeReg hj) (descIndirect_encodeReg hk),
    encodeReg_toNat_mod hi, encodeReg_toNat_mod hj, encodeReg_toNat_mod hk]

end

/-- The descriptor of a well-formed operand has that operand's form. -/
theorem descForm_encodeLoc {d : Loc} (hd : d.wf = true) : descForm (encodeLoc d) = d := by
  cases d with
  | reg i =>
    have hi := regIndexOk_iff.1 hd
    rw [encodeLoc, encodeReg, descForm_of_direct (descIndirect_descWord hi), descIndex_descWord hi]
  | ind i off =>
    obtain ⟨hi, hoff⟩ := (Bool.and_eq_true _ _).mp hd
    have hi := regIndexOk_iff.1 hi
    obtain ⟨hmin, hmax⟩ := offsetOk_iff.1 hoff
    rw [encodeLoc, descForm_of_indirect (descIndirect_descWord hi), descIndex_descWord hi,
      descOffset_descWord hi hmin hmax]

/-- Settles O4, instruction by instruction: the header is legal for its opcode, and each operand word is tagged and read
back as the operand it was written from. -/
theorem decodeOfEncodeIsTheInstruction : Obligations.DecodeOfEncodeIsTheInstruction := by
  intro i rest h
  cases i with
  | add i j k =>
    simp only [Instr.wf, Bool.and_eq_true, and_assoc] at h
    obtain ⟨hi, hj, hk⟩ := h
    exact decodeRecord_of_record .add [encodeReg i, encodeReg j, encodeReg k] (arity3_encodeReg hi hj hk)
  | mul i j k =>
    simp only [Instr.wf, Bool.and_eq_true, and_assoc] at h
    obtain ⟨hi, hj, hk⟩ := h
    exact decodeRecord_of_record .mul [encodeReg i, encodeReg j, encodeReg k] (arity3_encodeReg hi hj hk)
  | decrement i => exact decodeRecord_of_record .decrement [encodeReg i] (arity1_encodeReg h)
  | testEquals i j =>
    obtain ⟨hi, hj⟩ := (Bool.and_eq_true _ _).mp h
    exact decodeRecord_of_record .testEquals [encodeReg i, encodeReg j] (arity2_encodeReg hi hj)
  | jump t => exact decodeRecord_of_record .jump [t] rfl
  | jumpIfTrue t => exact decodeRecord_of_record .jumpIfTrue [t] rfl
  | call t => exact decodeRecord_of_record .call [t] rfl
  | ret => exact decodeRecord_of_record .ret [] rfl
  | push i => exact decodeRecord_of_record .push [encodeReg i] (arity1_encodeReg h)
  | pop i => exact decodeRecord_of_record .pop [encodeReg i] (arity1_encodeReg h)
  | move d src =>
    obtain ⟨hd, hsrc⟩ := (Bool.and_eq_true _ _).mp h
    cases src with
    | loc l =>
      refine decodeRecord_of_record .move [encodeLoc d, encodeLoc l] ?_
      change Except.ok (Instr.move (descForm (encodeLoc d)) (.loc (descForm (encodeLoc l)))) = _
      rw [descForm_encodeLoc hd, descForm_encodeLoc hsrc]
    | num n =>
      refine decodeRecord_of_record .move [encodeLoc d, n] ?_
      change Except.ok (Instr.move (descForm (encodeLoc d)) (.num n)) = _
      rw [descForm_encodeLoc hd]
  | echo d =>
    refine decodeRecord_of_record .echo [encodeLoc d] ?_
    change Except.ok (Instr.echo (descForm (encodeLoc d))) = _
    rw [descForm_encodeLoc h]
  | iinput a => exact decodeRecord_of_record .iinput [a] rfl
  | halt => exact decodeRecord_of_record .halt [] rfl

/-- Settles O8: each of the seven is the encoder's record of its instruction. -/
theorem specRecordsDecode : Obligations.SpecRecordsDecode := by
  refine ⟨?_, ?_, ?_, ?_, ?_, ?_, ?_⟩
  · exact decodeOfEncodeIsTheInstruction (.add 3 3 4) [] rfl
  · exact decodeOfEncodeIsTheInstruction (.jumpIfTrue 7#32) [] rfl
  · exact decodeOfEncodeIsTheInstruction (.push 1) [] rfl
  · exact decodeOfEncodeIsTheInstruction (.move (.ind 0 5) (.loc (.ind 7 1))) [] rfl
  · exact decodeOfEncodeIsTheInstruction (.move (.reg 1) (.num 5#32)) [] rfl
  · exact decodeOfEncodeIsTheInstruction (.echo (.ind 0 11)) [] rfl
  · exact decodeOfEncodeIsTheInstruction .halt [] rfl

/-! What a record that decodes is. -/

/-- Whatever the answer `r` gives, if it is no error, has the property `P`. -/
def Yields {ε α : Type} (r : Except ε α) (P : α → Prop) : Prop := ∀ a, r = .ok a → P a

section

variable {ε α β : Type} {P : α → Prop} {Q : β → Prop}

theorem Yields.of_ok {a : α} (h : P a) : Yields (.ok a : Except ε α) P := by
  rintro _ ⟨⟩
  exact h

theorem Yields.of_error (e : ε) : Yields (.error e) P := by
  rintro _ ⟨⟩

theorem Yields.bind {r : Except ε α} {f : α → Except ε β} (hr : Yields r P) (hf : ∀ a, P a → Yields (f a) Q) :
    Yields (r >>= f) Q := by
  cases r with
  | error e => exact .of_error e
  | ok a => exact hf a (hr a rfl)

end

theorem regIndexOk_descIndex (d : Word) : regIndexOk (descIndex d) = true := by
  have hindex := descIndex_eq_mod d
  exact regIndexOk_iff.2 (by omega)

theorem wf_descForm (d : Word) : (descForm d).wf = true := by
  have hi := regIndexOk_descIndex d
  cases hd : descIndirect d with
  | false => rwa [descForm_of_direct hd]
  | true =>
    rw [descForm_of_indirect hd, Loc.wf, hi, offsetOk_iff.2 (descOffset_bounds d)]
    rfl

theorem argDirect_yields (op : Opcode) (k : Nat) (a : Arg) : Yields (argDirect op k a) (regIndexOk · = true) := by
  cases a with
  | descriptor d =>
    rw [argDirect]
    split
    · exact .of_error _
    · exact .of_ok (regIndexOk_descIndex d)
  | number n => exact .of_error _
  | text t => exact .of_error _

theorem argLoc_yields (op : Opcode) (k : Nat) (a : Arg) : Yields (argLoc op k a) (·.wf = true) := by
  cases a with
  | descriptor d => exact .of_ok (wf_descForm d)
  | number n => exact .of_error _
  | text t => exact .of_error _

theorem argNumber_yields (op : Opcode) (k : Nat) (a : Arg) : Yields (argNumber op k a) fun _ => True :=
  fun _ _ => trivial

theorem argSrc_yields (op : Opcode) (k : Nat) (a : Arg) : Yields (argSrc op k a) (·.wf = true) := by
  cases a with
  | descriptor d => exact .of_ok (wf_descForm d)
  | number n => exact .of_ok rfl
  | text t => exact .of_error _

section

variable {op : Opcode} {args : List Arg} {P : Instr → Prop}

theorem arity0_yields {i : Instr} (h : P i) : Yields (arity0 op i args) P := by
  match args with
  | [] => exact .of_ok h
  | _ :: _ => exact .of_error _

theorem arity1_yields {f : Arg → Except ArgError Instr} (h : ∀ a, Yields (f a) P) : Yields (arity1 op f args) P := by
  match args with
  | [a] => exact h a
  | [] => exact .of_error _
  | _ :: _ :: _ => exact .of_error _

theorem arity2_yields {f : Arg → Arg → Except ArgError Instr} (h : ∀ a b, Yields (f a b) P) :
    Yields (arity2 op f args) P := by
  match args with
  | [a, b] => exact h a b
  | [] => exact .of_error _
  | [_] => exact .of_error _
  | _ :: _ :: _ :: _ => exact .of_error _

theorem arity3_yields {f : Arg → Arg → Arg → Except ArgError Instr} (h : ∀ a b c, Yields (f a b c) P) :
    Yields (arity3 op f args) P := by
  match args with
  | [a, b, c] => exact h a b c
  | [] => exact .of_error _
  | [_] => exact .of_error _
  | [_, _] => exact .of_error _
  | _ :: _ :: _ :: _ :: _ => exact .of_error _

end

/-- What validation answers is a well-formed instruction of its opcode (R100, R101). -/
theorem validate_yields (op : Opcode) (args : List Arg) :
    Yields (validate op args) fun i => i.wf = true ∧ i.opcode = op := by
  cases op with
  | add | mul =>
    exact arity3_yields fun a b c => (argDirect_yields _ 0 a).bind fun i hi => (argDirect_yields _ 1 b).bind fun j hj =>
      (argDirect_yields _ 2 c).bind fun k hk => .of_ok ⟨by simp [Instr.wf, hi, hj, hk], rfl⟩
  | testEquals =>
    exact arity2_yields fun a b => (argDirect_yields _ 0 a).bind fun i hi => (argDirect_yields _ 1 b).bind fun j hj =>
      .of_ok ⟨by simp [Instr.wf, hi, hj], rfl⟩
  | move =>
    exact arity2_yields fun a b => (argLoc_yields _ 0 a).bind fun d hd => (argSrc_yields _ 1 b).bind fun src hsrc =>
      .of_ok ⟨by simp [Instr.wf, hd, hsrc], rfl⟩
  | decrement | push | pop =>
    exact arity1_yields fun a => (argDirect_yields _ 0 a).bind fun i hi => .of_ok ⟨hi, rfl⟩
  | jump | jumpIfTrue | call | iinput =>
    exact arity1_yields fun a => (argNumber_yields _ 0 a).bind fun n _ => .of_ok ⟨rfl, rfl⟩
  | echo => exact arity1_yields fun a => (argLoc_yields _ 0 a).bind fun d hd => .of_ok ⟨hd, rfl⟩
  | ret | halt => exact arity0_yields ⟨rfl, rfl⟩

/-- A record that decodes has a legal header and as many words as its opcode's arity, and they validate. -/
theorem decodeRecord_cons_ok {h : Word} {ws rest : List Word} {i : Instr}
    (hd : decodeRecord (h :: ws) = .ok (i, rest)) :
    headerReserved h = 0 ∧ ∃ op, Opcode.ofNumber (headerOp h) = some op ∧ (headerKind h && op != .move) = false ∧
      op.arity ≤ ws.length ∧ validate op (tagOperands op (headerKind h) (ws.take op.arity)) = .ok i ∧
      rest = ws.drop op.arity := by
  rw [decodeRecord] at hd
  split at hd
  · cases hd
  next hreserved =>
  split at hd
  · cases hd
  next op hop =>
  split at hd
  · cases hd
  next hkind =>
  split at hd
  · cases hd
  next hlen =>
  split at hd
  · cases hd
  next i' hi =>
  obtain ⟨rfl, rfl⟩ : i' = i ∧ ws.drop op.arity = rest := by simpa using hd
  exact ⟨not_not.1 hreserved, op, hop, Bool.eq_false_iff.2 hkind, not_lt.1 hlen, hi, rfl⟩

/-! The fields of a header, as arithmetic on the word. -/

theorem headerOp_eq_mod (h : Word) : headerOp h = h.toNat % 16 := by
  rw [headerOp, BitVec.extractLsb'_toNat, Nat.shiftRight_zero]

theorem headerKind_eq_true_iff (h : Word) : headerKind h = true ↔ h.toNat / 2 ^ 4 % 2 = 1 := by
  simp [headerKind, BitVec.getLsbD, Nat.testBit_eq_decide_div_mod_eq]

theorem headerReserved_eq_div (h : Word) : headerReserved h = h.toNat / 2 ^ 5 := by
  rw [headerReserved, BitVec.extractLsb'_toNat, Nat.shiftRight_eq_div_pow]
  omega

/-- Settles O5: what validation answered is well-formed and has the header's opcode. -/
theorem decodedRecordLengthAndForm : Obligations.DecodedRecordLengthAndForm := by
  intro h ws rest i hd
  obtain ⟨-, op, hop, -, hlen, hvalid, hrest⟩ := decodeRecord_cons_ok hd
  obtain ⟨hwf, rfl⟩ := validate_yields op _ i hvalid
  exact ⟨hwf, headerOp_eq_mod h ▸ hop, hlen, hrest⟩

theorem ofNumber_eq_some_lt {n : Nat} {op : Opcode} (h : Opcode.ofNumber n = some op) : n < 14 := by
  by_contra hn
  obtain ⟨m, rfl⟩ := Nat.exists_eq_add_of_le' (not_lt.1 hn)
  cases h

theorem ofNumber_eq_some_move {n : Nat} (h : Opcode.ofNumber n = some .move) : n = 10 := by
  have hall : ∀ m < 14, Opcode.ofNumber m = some .move → m = 10 := by decide
  exact hall n (ofNumber_eq_some_lt h) h

/-- Settles O6: a record that decodes has no reserved bit set, an opcode number below 14, and `K = 1` for Move alone. -/
theorem reservedHeadersNeverDecode : Obligations.ReservedHeadersNeverDecode := by
  intro h ws hbad
  cases hd : decodeRecord (h :: ws) with
  | error e => exact ⟨e, rfl⟩
  | ok p =>
    obtain ⟨hreserved, op, hop, hkind, -⟩ := decodeRecord_cons_ok (i := p.1) (rest := p.2) hd
    rw [headerReserved_eq_div] at hreserved
    rw [headerOp_eq_mod] at hop
    have hlt := ofNumber_eq_some_lt hop
    obtain hbits | hop14 | hop15 | ⟨hk, hnot10⟩ := hbad
    · exact absurd hreserved hbits
    · omega
    · omega
    · rw [(headerKind_eq_true_iff h).2 hk, Bool.true_and, bne_eq_false_iff_eq] at hkind
      subst hkind
      exact absurd (ofNumber_eq_some_move hop) hnot10

end Sys2Proof

/-! PROOFS. The family other, slots and runs: the canonical form (10_state.md section 1), runs that have ended and runs
of any length (40_execute_loop.md R130, 60_exceptions.md section 3), and the placed or stored instruction that runs next
(R77, R78, log entry 8). -/

namespace Sys2Proof.Machine

open Sys2Proof

/-! Canonical slots. -/

/-- In slots with rising numbers a listed pair is what its slot reads. -/
theorem Slots.get_of_mem {m : Slots} {a : Nat} {v : Value} (h : m.Pairwise (fun p q => p.1 < q.1))
    (hm : (a, v) ∈ m) : Slots.get m a = v := by
  induction m with
  | nil => cases hm
  | cons q m ih =>
    obtain ⟨hq, hrest⟩ := List.pairwise_cons.1 h
    obtain rfl | hm := List.mem_cons.1 hm
    · exact if_pos rfl
    · have hlt : q.1 < a := hq _ hm
      rw [Slots.get_cons, if_neg hlt.ne, ih hrest hm]

/-- In the canonical form the pairs listed are the slots that do not read Empty. -/
theorem Slots.mem_iff_get {m : Slots} (h : Slots.wf m) (p : Nat × Value) :
    p ∈ m ↔ Slots.get m p.1 = p.2 ∧ p.2 ≠ .empty :=
  ⟨fun hp => ⟨Slots.get_of_mem h.1 hp, h.2 p hp⟩, fun ⟨hget, hne⟩ => Slots.mem_of_get hget hne⟩

theorem Slots.nodup_of_wf {m : Slots} (h : Slots.wf m) : m.Nodup :=
  h.1.imp fun hlt he => hlt.ne (congrArg Prod.fst he)

/-- Settles O12: the reads fix which pairs are listed, and the rising numbers fix their order. -/
theorem canonicalSlotsAreSetByTheirReads : Obligations.CanonicalSlotsAreSetByTheirReads := by
  intro m n hm hn hget
  have hmem : ∀ p, p ∈ m ↔ p ∈ n := fun p => by
    rw [Slots.mem_iff_get hm, Slots.mem_iff_get hn, hget]
  have hperm : m.Perm n := (List.perm_ext_iff_of_nodup (Slots.nodup_of_wf hm) (Slots.nodup_of_wf hn)).2 hmem
  exact hperm.eq_of_pairwise (fun p q _ _ hpq hqp => absurd hqp hpq.asymm) hm.1 hn.1

/-! Runs. -/

theorem step_of_ended {s : State} (h : s.run ≠ .running) : step s = .next s := by
  unfold step
  split
  next hrun => exact absurd hrun h
  next => rfl
  next => rfl

theorem step_next (s : State) : ∃ t, step s = .next t := by
  by_cases hrun : s.run = .running
  · cases hf : fetch s with
    | error c => exact ⟨_, step_of_fetch_error hrun hf⟩
    | ok i =>
      rw [step_of_fetch_ok hrun hf]
      exact exec_next i s.advance
  · exact ⟨s, step_of_ended hrun⟩

theorem run_succ_of_step {s t : State} (k : Nat) (h : step s = .next t) :
    Host.Core.run core (k + 1) s = Host.Core.run core k t := by
  have hcore : core.step s = .next t := h
  simp only [Host.Core.run, hcore]

/-- Settles O15, by induction on the number of steps. -/
theorem endedRunsNeverChange : Obligations.EndedRunsNeverChange := by
  intro s k h
  induction k with
  | zero => rfl
  | succ k ih => rw [run_succ_of_step k (step_of_ended h), ih]

/-- Settles O16, by induction on the number of steps: each of them answers a state. -/
theorem everyRunAnswersAState : Obligations.EveryRunAnswersAState := by
  intro k
  induction k with
  | zero => exact fun s => ⟨s, rfl⟩
  | succ k ih =>
    intro s
    obtain ⟨t, ht⟩ := step_next s
    rw [run_succ_of_step k ht]
    exact ih t

/-! Instructions placed or stored where the next step fetches. -/

theorem withFetchWord_of_decode {s : State} {nbits w : Nat} {i : Instr} (hpc : s.pc < s.cfg.memSize)
    (hd : decodeTableWord nbits w = some i) :
    s.withFetchWord nbits w = (s.setSlot s.pc (.insn i)).setRun .running := by
  simp [State.withFetchWord, placeTableWord, hd, hpc]

/-- Settles O18: the placed handle is read back where the step of O13 fetches it. -/
theorem placedTableWordRunsNext : Obligations.PlacedTableWordRunsNext := by
  intro s nbits w i hpc hd
  have hmem : ∀ a, memRead a ((s.setSlot s.pc (.insn i)).setRun .running) =
      memRead a (s.setSlot (s.pc : Int).toNat (.insn i)) := memRead_congr rfl rfl
  have hread : memRead s.pc ((s.setSlot s.pc (.insn i)).setRun .running) = .ok (.insn i) := by
    rw [hmem, memRead_setSlot_self ⟨by omega, by omega⟩]
  refine ⟨_, withFetchWord_of_decode hpc hd, rfl, hread, fun a ha => ?_, ?_⟩
  · rw [hmem, memRead_setSlot_of_ne (by omega) ha]
  · exact stepExecutesTheFetchedInstruction _ i rfl hread

/-- Settles O19: the step of O13 makes the store of O41, and the next fetch reads what it stored. -/
theorem storesAreSeenByTheNextFetch : Obligations.StoresAreSeenByTheNextFetch := by
  intro s b r off w v hrun hm hb haddr hlt hv
  have hslot : 0 ≤ w.toInt + off ∧ w.toInt + off < s.cfg.memSize := by omega
  have hstep : step s = .next (s.advance.setSlot (w.toInt + off).toNat v) := by
    rw [stepExecutesTheFetchedInstruction s _ hrun hm]
    exact exec_move_ind_of_slot (s := s.advance) (src := .loc (.reg r)) hv hb hslot
  have hread : memRead (s.pc + 1 : Nat) (s.advance.setSlot (w.toInt + off).toNat v) = .ok v := by
    rw [show ((s.pc + 1 : Nat) : Int) = w.toInt + off by omega]
    exact memRead_setSlot_self (s := s.advance) hslot
  refine ⟨_, hstep, rfl, ?_, fun htag => ?_⟩
  · rintro i rfl
    exact stepExecutesTheFetchedInstruction _ i hrun hread
  · exact (fetchErrorsEndTheRun (s.advance.setSlot _ v) hrun).2 v hread htag

end Sys2Proof.Machine

/-! PROOFS. The family other, what every state of a run meets: the invariant, from reset or a boot on (R53, R260,
10_state.md sections 1 to 5), and Texts and handles that are only copied (R31, R32). -/

namespace Sys2Proof.Machine

open Sys2Proof

/-! What an instruction may write, and properties kept by such writes. -/

/-- `v` is an Integer, or some slot or register of `s` holds it: what an instruction that starts in `s` may write. -/
def State.mayWrite (s : State) (v : Value) : Prop := v.tag = .int ∨ s.holds v

theorem mayWrite_int (s : State) (n : Word) : s.mayWrite (.int n) := .inl rfl

section

variable {s : State} {v : Value}

theorem holds_of_readReg {i : Nat} (h : readReg i s = .ok v) : s.holds v := .inr ⟨i, (readReg_ok_iff.1 h).2⟩

theorem holds_of_memRead {a : Int} (h : memRead a s = .ok v) : s.holds v := .inl ⟨a.toNat, (memRead_ok_iff.1 h).2⟩

theorem mayWrite_of_srcHolds {src : Src} (h : SrcHolds s src v) : s.mayWrite v := by
  cases src with
  | num n =>
    obtain rfl : v = .int n := h
    exact mayWrite_int s n
  | loc d =>
    cases d with
    | reg i => exact .inr (holds_of_readReg h)
    | ind i off =>
      obtain ⟨b, -, hm⟩ := h
      exact .inr (holds_of_memRead hm)

end

/-- Every update that an instruction starting in `s` may make keeps the property `P`: a write to a register or a slot
that exists, of a Value it may write; a `pc` in range; and any update of the flag, the ports, the draws and `run`. -/
structure KeptFrom (P : State → Prop) (s : State) : Prop where
  setRun : ∀ u r, P u → P (u.setRun r)
  setReg : ∀ u j v, j < s.cfg.regCount → s.mayWrite v → P u → P (u.setReg j v)
  setSlot : ∀ u a v, a < s.cfg.memSize → s.mayWrite v → P u → P (u.setSlot a v)
  setPc : ∀ u p, p ≤ maxI32 → P u → P (u.setPc p)
  setFlag : ∀ u b, P u → P (u.setFlag b)
  emit : ∀ u t, P u → P (u.emit t)
  consumeAnswer : ∀ u, P u → P u.consumeAnswer
  addDraws : ∀ u n, P u → P (u.addDraws n)

section

variable {P : State → Prop} {s : State}

theorem KeptFrom.raise (hP : KeptFrom P s) {u : State} (addr : Nat) (c : Cause) (hu : P u) : P (u.raise addr c) :=
  hP.setRun u _ hu

/-- A slot whose number an instruction has checked exists. -/
theorem KeptFrom.setSlot_toNat (hP : KeptFrom P s) {u : State} {a : Int} {v : Value} (ha : 0 ≤ a ∧ a < s.cfg.memSize)
    (hv : s.mayWrite v) (hu : P u) : P (u.setSlot a.toNat v) :=
  hP.setSlot u _ v (by omega) hv hu

/-- The stack register that was read exists. -/
theorem KeptFrom.setStackPtr (hP : KeptFrom P s) {u : State} {sp : Word}
    (hr : readReg s.cfg.spIndex s = .ok (.int sp)) (n : Word) (hu : P u) : P (u.setReg s.cfg.spIndex (.int n)) :=
  hP.setReg u _ _ (readReg_ok_iff.1 hr).1 (mayWrite_int s n) hu

theorem KeptFrom.setPc_word (hP : KeptFrom P s) {u : State} (w : Word) (hu : P u) : P (u.setPc w.toInt.toNat) :=
  hP.setPc u _ (word_toNat_toInt_le w) hu

theorem KeptFrom.callPushed (hP : KeptFrom P s) {sp : Word} (hr : readReg s.cfg.spIndex s = .ok (.int sp))
    (hm : 0 ≤ sp.toInt ∧ sp.toInt < s.cfg.memSize) (hs : P s) : P (callPushed s sp) :=
  hP.setStackPtr hr _ (hP.setSlot_toNat hm (mayWrite_int s _) hs)

/-- A property kept by every update an instruction may make is kept by the instruction, faulting or not. -/
theorem KeptFrom.of_exec (hP : KeptFrom P s) {i : Instr} {t : State} (hs : P s) (h : exec i s = .next t) : P t := by
  cases i with
  | add i j k =>
    obtain ⟨c, -, rfl⟩ | ⟨a, b, -, -, hi, rfl⟩ := execAdd_cases h
    · exact hP.raise _ _ hs
    · exact hP.setReg _ _ _ hi (mayWrite_int s _) hs
  | mul i j k =>
    obtain ⟨c, -, rfl⟩ | ⟨a, b, -, -, hi, rfl⟩ := execMul_cases h
    · exact hP.raise _ _ hs
    · exact hP.setReg _ _ _ hi (mayWrite_int s _) hs
  | decrement i =>
    obtain ⟨c, -, rfl⟩ | ⟨a, hr, rfl⟩ := execDecrement_cases h
    · exact hP.raise _ _ hs
    · exact hP.setReg _ _ _ (readReg_ok_iff.1 hr).1 (mayWrite_int s _) hs
  | testEquals j k =>
    obtain ⟨c, -, rfl⟩ | ⟨a, b, -, -, rfl⟩ := execTestEquals_cases h
    · exact hP.raise _ _ hs
    · exact hP.addDraws _ _ (hP.setFlag _ _ hs)
  | jump w =>
    obtain ⟨c, -, rfl⟩ | ⟨-, rfl⟩ := execJump_cases h
    · exact hP.raise _ _ hs
    · exact hP.setPc_word w hs
  | jumpIfTrue w =>
    obtain ⟨c, -, rfl⟩ | ⟨-, -, rfl⟩ | ⟨-, rfl⟩ := execJumpIfTrue_cases h
    · exact hP.raise _ _ hs
    · exact hP.setPc_word w hs
    · exact hs
  | call w =>
    obtain ⟨c, -, rfl⟩ | ⟨sp, hr, hm, ⟨-, rfl⟩ | ⟨-, rfl⟩⟩ := execCall_cases h
    · exact hP.raise _ _ hs
    · exact hP.raise _ _ (hP.callPushed hr hm hs)
    · exact hP.setPc_word w (hP.callPushed hr hm hs)
  | ret =>
    obtain ⟨c, -, rfl⟩ | ⟨sp, w, hr, -, -, rfl⟩ := execRet_cases h
    · exact hP.raise _ _ hs
    · exact hP.setStackPtr hr _ (hP.setPc_word w hs)
  | push i =>
    obtain ⟨c, -, rfl⟩ | ⟨sp, v, hr, hv, hm, rfl⟩ := execPush_cases h
    · exact hP.raise _ _ hs
    · exact hP.setStackPtr hr _ (hP.setSlot_toNat hm (.inr (holds_of_readReg hv)) hs)
  | pop i =>
    obtain ⟨c, -, rfl⟩ | ⟨sp, v, hr, hv, hi, rfl⟩ := execPop_cases h
    · exact hP.raise _ _ hs
    · exact hP.setStackPtr hr _ (hP.setReg _ _ _ hi (.inr (holds_of_memRead hv)) hs)
  | move d src =>
    obtain ⟨c, -, rfl⟩ | ⟨v, hv, ⟨i, -, hi, rfl⟩ | ⟨i, off, a, -, -, hm, rfl⟩⟩ := execMove_cases h
    · exact hP.raise _ _ hs
    · exact hP.setReg _ _ _ hi (mayWrite_of_srcHolds hv) hs
    · exact hP.setSlot_toNat hm (mayWrite_of_srcHolds hv) hs
  | echo d =>
    obtain ⟨c, -, rfl⟩ | ⟨v, -, rfl⟩ := execEcho_cases h
    · exact hP.raise _ _ hs
    · exact hP.addDraws _ _ (hP.emit _ _ hs)
  | iinput a =>
    have hconsumed : P s.consumeAnswer := hP.consumeAnswer s hs
    obtain ⟨c, -, rfl⟩ | rfl | ⟨line, n, -, -, hm, rfl⟩ := execIinput_cases h
    · exact hP.raise _ _ hconsumed
    · exact hP.setFlag _ _ hconsumed
    · exact hP.setFlag _ _ (hP.setSlot_toNat hm (mayWrite_int s n) hconsumed)
  | halt =>
    obtain rfl := execHalt_cases h
    exact hP.setRun _ _ hs

end

/-! The invariant. -/

/-- What the invariant demands of a state under configuration `c`, but for `run`. -/
structure LegalUnder (c : Config) (s : State) : Prop where
  cfg : s.cfg = c
  valid : c.valid
  mem : Slots.legal c.memSize s.mem
  x : Slots.legal c.regCount s.x
  pc : s.pc ≤ maxI32

section

variable {c : Config} {s : State}

theorem LegalUnder.of_inv (h : s.Inv) : LegalUnder s.cfg s := by
  obtain ⟨hcfg, hmem, hx, hpc, -⟩ := h
  exact ⟨rfl, hcfg, hmem, hx, hpc⟩

theorem LegalUnder.inv (h : LegalUnder c s) (hrun : RunState.legal s.pc s.run = true) : s.Inv := by
  obtain ⟨rfl, hcfg, hmem, hx, hpc⟩ := h
  exact ⟨hcfg, hmem, hx, hpc, hrun⟩

/-- What an instruction may write in a legal state is legal: an Integer, or a Value that is there already. -/
theorem LegalUnder.legal_of_mayWrite (h : LegalUnder c s) {v : Value} (hv : s.mayWrite v) : v.legal = true := by
  obtain htag | ⟨a, rfl⟩ | ⟨i, rfl⟩ := hv
  · cases v with
    | int n => rfl
    | text t => cases htag
    | insn i => cases htag
    | empty => cases htag
  · exact Slots.legal_get h.mem a
  · exact Slots.legal_get h.x i

theorem LegalUnder.setReg (h : LegalUnder c s) {j : Nat} {v : Value} (hj : j < c.regCount) (hv : v.legal = true) :
    LegalUnder c (s.setReg j v) :=
  ⟨h.cfg, h.valid, h.mem, Slots.legal_set h.x hj hv, h.pc⟩

theorem LegalUnder.setSlot (h : LegalUnder c s) {a : Nat} {v : Value} (ha : a < c.memSize) (hv : v.legal = true) :
    LegalUnder c (s.setSlot a v) :=
  ⟨h.cfg, h.valid, Slots.legal_set h.mem ha hv, h.x, h.pc⟩

theorem LegalUnder.setPc (h : LegalUnder c s) {p : Nat} (hp : p ≤ maxI32) : LegalUnder c (s.setPc p) :=
  ⟨h.cfg, h.valid, h.mem, h.x, hp⟩

theorem keptFrom_legalUnder (h : LegalUnder c s) : KeptFrom (LegalUnder c) s where
  setRun _ _ hu := ⟨hu.cfg, hu.valid, hu.mem, hu.x, hu.pc⟩
  setReg _ _ _ hj hv hu := hu.setReg (h.cfg ▸ hj) (h.legal_of_mayWrite hv)
  setSlot _ _ _ ha hv hu := hu.setSlot (h.cfg ▸ ha) (h.legal_of_mayWrite hv)
  setPc _ _ hp hu := hu.setPc hp
  setFlag _ _ hu := ⟨hu.cfg, hu.valid, hu.mem, hu.x, hu.pc⟩
  emit _ _ hu := ⟨hu.cfg, hu.valid, hu.mem, hu.x, hu.pc⟩
  consumeAnswer _ hu := ⟨hu.cfg, hu.valid, hu.mem, hu.x, hu.pc⟩
  addDraws _ _ hu := ⟨hu.cfg, hu.valid, hu.mem, hu.x, hu.pc⟩

/-- A fetched instruction stands below the end of the memory, so `pc` can be incremented. -/
theorem LegalUnder.advance (h : LegalUnder c s) {i : Instr} (hf : fetch s = .ok i) : LegalUnder c s.advance := by
  have hlt := (fetch_ok_iff.1 hf).1
  have hsize : s.cfg.memSize ≤ maxI32 := h.cfg ▸ h.valid.2.1
  exact h.setPc (by omega)

end

/-- A fault record an instruction makes names its own address: `pc` is then still the incremented one. -/
theorem runState_legal_of_exec {i : Instr} {s t : State} (hrun : s.run = .running)
    (h : exec i s.advance = .next t) : RunState.legal t.pc t.run = true := by
  by_cases hi : i = .halt
  · subst hi
    obtain rfl := execHalt_cases h
    rfl
  · obtain hkept | ⟨c, -, hfault⟩ := run_of_exec hi h
    · rw [hkept, State.advance_run, hrun]
      rfl
    · have hpc : t.pc = s.pc + 1 := by
        by_contra hne
        obtain ⟨-, -, hsame⟩ := onlyTransfersSetThePc i _ t h hne
        rw [hfault, State.advance_run, hrun] at hsame
        cases hsame
      simp [hfault, hpc, RunState.legal, State.instrAddr]

/-- Settles O22: an ended run and a fetch error change nothing but `run`; an instruction keeps what every update it may
make keeps, and the fault record it makes names it. -/
theorem stepKeepsTheInvariant : Obligations.StepKeepsTheInvariant := by
  intro s t hs h
  have hlegal := LegalUnder.of_inv hs
  obtain ⟨-, rfl⟩ | ⟨-, c, -, rfl⟩ | ⟨hrun, i, hf, hexec⟩ := step_cases h
  · exact ⟨hs, rfl⟩
  · exact ⟨((keptFrom_legalUnder hlegal).raise s.pc c hlegal).inv (by simp [RunState.legal]), rfl⟩
  · have hadvanced := hlegal.advance hf
    have hlegal' := (keptFrom_legalUnder hadvanced).of_exec hadvanced hexec
    exact ⟨hlegal'.inv (runState_legal_of_exec hrun hexec), hlegal'.cfg⟩

/-! Reset and boot. -/

/-- Settles O20: reset lists no slot and no register. -/
theorem resetValues : Obligations.ResetValues := by
  refine fun c script => ⟨rfl, rfl, rfl, rfl, fun i hi => ?_, fun a ha => ?_⟩
  · exact readReg_ok_iff.2 ⟨hi, Slots.get_nil i⟩
  · exact memRead_ok_iff.2 ⟨⟨Int.natCast_nonneg a, Int.ofNat_lt.2 ha⟩, Slots.get_nil _⟩

theorem legalUnder_resetWith {c : Config} (hc : c.valid) (script : List Answer) :
    LegalUnder c (State.resetWith c script) :=
  ⟨rfl, hc, Slots.legal_nil _, Slots.legal_nil _, Nat.zero_le _⟩

/-- Settles O21: empty slots are legal whatever their number. -/
theorem resetMeetsTheInvariant : Obligations.ResetMeetsTheInvariant := by
  have hreset : ∀ (c : Config) (script : List Answer), c.valid → (State.resetWith c script).Inv :=
    fun c script hc => (legalUnder_resetWith hc script).inv rfl
  exact ⟨hreset, hreset Config.initial [] (by decide)⟩

/-- What an item places is legal: its instructions have been validated (R100, R106). -/
theorem legal_of_imageItem_value {item : ImageItem} {v : Value} (h : item.value = .ok v) : v.legal = true := by
  cases item with
  | int n => cases h; rfl
  | text t => cases h; rfl
  | record ws =>
    rw [ImageItem.value] at h
    split at h
    · cases h
    next i hd =>
      cases h
      cases ws with
      | nil => cases hd
      | cons hdr ws =>
        obtain ⟨hwf, -⟩ := decodedRecordLengthAndForm hdr ws [] i hd
        exact hwf
    · cases h
  | built op args =>
    rw [ImageItem.value] at h
    split at h
    · cases h
    next i hi =>
      cases h
      exact (validate_yields op args i hi).1

theorem LegalUnder.load {c : Config} {image : Image} {s t : State} (hs : LegalUnder c s)
    (h : load image s = .next t) : LegalUnder c t := by
  induction image generalizing s with
  | nil => cases h; exact hs
  | cons q rest ih =>
    obtain ⟨v, hv, ha, hrest⟩ := load_cons_next h
    exact ih (hs.setSlot (hs.cfg ▸ ha) (legal_of_imageItem_value hv)) hrest

/-- A boot that succeeds has passed the configuration check. -/
theorem boot_next_valid {m r : Int} {sp : Nat} {p : Parser} {script : List Answer} {image : Image} {s : State}
    (h : boot m r sp p script image = .next s) :
    ∃ c : Config, c.valid ∧ load image (State.resetWith c script) = .next s := by
  by_cases hm : m < 1 ∨ 2147483647 < m
  · rw [boot_of_memSize_out hm] at h
    cases h
  · by_cases hr : r < sp + 1 ∨ 2147483647 < r
    · rw [boot_of_regCount_out hm hr] at h
      cases h
    · rw [boot_of_in_range hm hr] at h
      refine ⟨_, ?_, h⟩
      unfold Config.valid maxI32
      dsimp only
      omega

/-- Settles O24: the load places legal Values into the reset state of a legal configuration, and leaves the run
RUNNING. -/
theorem bootedStatesMeetTheInvariant : Obligations.BootedStatesMeetTheInvariant := by
  intro m r sp p script image s h
  obtain ⟨c, hc, hload⟩ := boot_next_valid h
  refine ((legalUnder_resetWith hc script).load hload).inv ?_
  rw [load_keeps_all_but_mem hload]
  rfl

/-! Texts and handles. -/

section

variable {s : State} {v w : Value}

theorem holds_setReg {j : Nat} (h : (s.setReg j w).holds v) : v = w ∨ s.holds v := by
  obtain ⟨a, ha⟩ | ⟨i, hi⟩ := h
  · exact .inr (.inl ⟨a, ha⟩)
  · rw [State.setReg_x, Slots.get_set] at hi
    split at hi
    · exact .inl hi.symm
    · exact .inr (.inr ⟨i, hi⟩)

theorem holds_setSlot {b : Nat} (h : (s.setSlot b w).holds v) : v = w ∨ s.holds v := by
  obtain ⟨a, ha⟩ | ⟨i, hi⟩ := h
  · rw [State.setSlot_mem, Slots.get_set] at ha
    split at ha
    · exact .inl ha.symm
    · exact .inr (.inl ⟨a, ha⟩)
  · exact .inr (.inr ⟨i, hi⟩)

/-- A Value that is no Integer is written only where `s` held it. -/
theorem keptFrom_held_before (hv : v.tag ≠ .int) : KeptFrom (fun u => u.holds v → s.holds v) s where
  setRun _ _ hu := hu
  setReg _ _ _ _ hw hu h := by
    obtain rfl | h := holds_setReg h
    · exact hw.resolve_left hv
    · exact hu h
  setSlot _ _ _ _ hw hu h := by
    obtain rfl | h := holds_setSlot h
    · exact hw.resolve_left hv
    · exact hu h
  setPc _ _ _ hu := hu
  setFlag _ _ hu := hu
  emit _ _ hu := hu
  consumeAnswer _ hu := hu
  addDraws _ _ hu := hu

end

/-- Settles O54: a Text or a handle that the state after the step holds was not written by it, or was copied. -/
theorem textsAndHandlesAreOnlyCopied : Obligations.TextsAndHandlesAreOnlyCopied := by
  intro s t v h htag ht
  obtain ⟨-, rfl⟩ | ⟨-, c, -, rfl⟩ | ⟨-, i, -, hexec⟩ := step_cases h
  · exact ht
  · exact ht
  · have hne : v.tag ≠ .int := by
      obtain htag | htag := htag
      · simp [htag]
      · simp [htag]
    exact (keptFrom_held_before (s := s.advance) hne).of_exec id hexec ht

end Sys2Proof.Machine

/-! PROOFS. The family other, over all instructions: the ports and the configuration (R10, R11, R48), and which
instruction raises what (R238, R233). -/

namespace Sys2Proof.Machine

open Sys2Proof

/-! The ports and the configuration, by the frame rule. -/

section

variable {s : State} {i : Instr}

theorem unobserved_cfg_script : Unobserved (fun u => (u.cfg, u.script)) s i where
  setRun _ _ := rfl
  setReg _ _ _ _ := rfl
  setSlot _ _ _ _ _ := rfl
  setPc _ _ _ := rfl
  setFlag _ _ _ := rfl
  emit _ _ _ := rfl
  consumeAnswer _ _ := rfl
  addDraws _ _ _ := rfl

theorem unobserved_out (hi : ∀ d, i ≠ .echo d) : Unobserved State.out s i where
  setRun _ _ := rfl
  setReg _ _ _ _ := rfl
  setSlot _ _ _ _ _ := rfl
  setPc _ _ _ := rfl
  setFlag _ _ _ := rfl
  emit _ _ h := absurd h (not_exists.2 hi)
  consumeAnswer _ _ := rfl
  addDraws _ _ _ := rfl

theorem unobserved_inPos (hi : ∀ a, i ≠ .iinput a) : Unobserved State.inPos s i where
  setRun _ _ := rfl
  setReg _ _ _ _ := rfl
  setSlot _ _ _ _ _ := rfl
  setPc _ _ _ := rfl
  setFlag _ _ _ := rfl
  emit _ _ _ := rfl
  consumeAnswer _ h := absurd h (not_exists.2 hi)
  addDraws _ _ _ := rfl

theorem unobserved_draws (ht : ∀ j k, i ≠ .testEquals j k) (he : ∀ d, i ≠ .echo d) :
    Unobserved State.draws s i where
  setRun _ _ := rfl
  setReg _ _ _ _ := rfl
  setSlot _ _ _ _ _ := rfl
  setPc _ _ _ := rfl
  setFlag _ _ _ := rfl
  emit _ _ _ := rfl
  consumeAnswer _ _ := rfl
  addDraws _ _ h := by
    obtain ⟨j, k, hi⟩ | ⟨d, hi⟩ := h
    · exact absurd hi (ht j k)
    · exact absurd hi (he d)

end

/-- IInput takes its answer first, whatever becomes of the line. -/
theorem inPos_of_execIinput {a : Word} {s t : State} (h : execIinput a s = .next t) : t.inPos = s.inPos + 1 := by
  obtain ⟨c, -, rfl⟩ | rfl | ⟨line, n, -, -, -, rfl⟩ := execIinput_cases h
  · rfl
  · rfl
  · rfl

/-- Settles O52, by the frame rule for each port, and for IInput by what it does first. -/
theorem portsAndConfigurationKeep : Obligations.PortsAndConfigurationKeep := by
  intro i s t h
  obtain ⟨hcfg, hscript⟩ := Prod.mk.inj (unobserved_cfg_script.eq_of_exec h)
  refine ⟨hcfg, hscript, fun hi => (unobserved_out hi).eq_of_exec h, fun hi => (unobserved_inPos hi).eq_of_exec h, ?_,
    fun ht he => (unobserved_draws ht he).eq_of_exec h⟩
  rintro ⟨a, rfl⟩
  exact inPos_of_execIinput h

/-! The rows of the table name a register only where it does not exist. -/

/-- If the error `c` is that a register does not exist, then that register does not exist in `s`. -/
def RegOutOfRange (s : State) (c : Cause) : Prop := ∀ r, c = .outOfRange .reg r → (s.cfg.regCount : Int) ≤ r

section

variable {s : State} {c : Cause}

theorem regOutOfRange_of_le {i : Nat} (h : s.cfg.regCount ≤ i ∧ c = .outOfRange .reg i) : RegOutOfRange s c := by
  obtain ⟨hi, rfl⟩ := h
  rintro r ⟨⟩
  exact Int.ofNat_le.2 hi

theorem regOutOfRange_mem (a : Int) : RegOutOfRange s (.outOfRange .mem a) := nofun

theorem regOutOfRange_typeMismatch (site : Site) (tag : Tag) : RegOutOfRange s (.typeMismatch site tag) := nofun

theorem regOutOfRange_invalidArgument (v : Int) : RegOutOfRange s (.invalidArgument v) := nofun

theorem regOutOfRange_of_intRaises {i : Nat} {site : Site} (h : IntRaises s i site c) : RegOutOfRange s c := by
  obtain hi | ⟨v, -, -, rfl⟩ := h
  · exact regOutOfRange_of_le hi
  · exact regOutOfRange_typeMismatch _ _

theorem regOutOfRange_of_locRaises {d : Loc} {site : Site} (h : LocRaises s d site c) : RegOutOfRange s c := by
  cases d with
  | reg i => exact regOutOfRange_of_le h
  | ind i off =>
    obtain hi | ⟨v, -, -, rfl⟩ | ⟨b, -, -, rfl⟩ := h
    · exact regOutOfRange_of_le hi
    · exact regOutOfRange_typeMismatch _ _
    · exact regOutOfRange_mem _

theorem regOutOfRange_of_mayRaise {i : Instr} (h : mayRaise s i c) : RegOutOfRange s c := by
  cases i with
  | add d j k | mul d j k =>
    obtain hj | hk | hd := h
    · exact regOutOfRange_of_intRaises hj
    · exact regOutOfRange_of_intRaises hk
    · exact regOutOfRange_of_le hd
  | decrement d => exact regOutOfRange_of_intRaises h
  | testEquals j k =>
    obtain hj | hk := h
    · exact regOutOfRange_of_le hj
    · exact regOutOfRange_of_le hk
  | jump w =>
    obtain ⟨-, rfl⟩ := h
    exact regOutOfRange_invalidArgument _
  | jumpIfTrue w =>
    obtain ⟨-, -, rfl⟩ := h
    exact regOutOfRange_invalidArgument _
  | call w =>
    obtain hsp | ⟨sp, -, -, rfl⟩ | ⟨-, rfl⟩ := h
    · exact regOutOfRange_of_intRaises hsp
    · exact regOutOfRange_mem _
    · exact regOutOfRange_invalidArgument _
  | ret =>
    obtain hsp | ⟨sp, -, ⟨-, rfl⟩ | ⟨v, -, -, rfl⟩ | ⟨w, -, -, rfl⟩⟩ := h
    · exact regOutOfRange_of_intRaises hsp
    · exact regOutOfRange_mem _
    · exact regOutOfRange_typeMismatch _ _
    · exact regOutOfRange_invalidArgument _
  | push d | pop d =>
    obtain hsp | hd | ⟨sp, -, -, rfl⟩ := h
    · exact regOutOfRange_of_intRaises hsp
    · exact regOutOfRange_of_le hd
    · exact regOutOfRange_mem _
  | move d src =>
    obtain ⟨l, -, hl⟩ | hd := h
    · exact regOutOfRange_of_locRaises hl
    · exact regOutOfRange_of_locRaises hd
  | echo d => exact regOutOfRange_of_locRaises h
  | iinput a =>
    obtain ⟨-, rfl⟩ := h
    exact regOutOfRange_mem _
  | halt => cases h

end

/-- Settles O55: an error comes of its row of the table and is recorded at the address of the instruction, and a row
names a register only where it does not exist. -/
theorem errorsAreThoseOfTheTable : Obligations.ErrorsAreThoseOfTheTable := by
  intro i p f s t hp hrun h hf
  have hi : i ≠ .halt := by
    rintro rfl
    rw [execHalt_cases h] at hf
    cases hf
  obtain hkept | ⟨c, hc, hfault⟩ := run_of_exec hi h
  · rw [hkept, hrun] at hf
    cases hf
  · obtain rfl : f = ⟨s.instrAddr, c⟩ := by simpa [hf] using hfault
    exact ⟨by simp [State.instrAddr, hp], hc, regOutOfRange_of_mayRaise hc⟩

end Sys2Proof.Machine

/-! PROOFS. The family other, the stack: Ret after Call (R178), Pop after Push (R193), and the exact stack pointer
(R194). -/

namespace Sys2Proof.Machine

open Sys2Proof

theorem readReg_setReg_self {s : State} {i : Nat} {v : Value} (h : i < s.cfg.regCount) :
    readReg i (s.setReg i v) = .ok v := by
  simp [readReg_setReg, h]

theorem readReg_setReg_of_ne {s : State} {i j : Nat} {v : Value} (h : j ≠ i) :
    readReg j (s.setReg i v) = readReg j s := by
  simp [readReg_setReg, h]

/-! The state in which Push completes, and in which Call sets `pc`. -/

/-- `s` with `v` in the slot that the pointer `sp` names, and the pointer decremented. -/
def pushed (s : State) (sp : Word) (v : Value) : State :=
  (s.setSlot sp.toInt.toNat v).setReg s.cfg.spIndex (.int (wrap32 (sp.toInt - 1)))

/-- Call has pushed its return address. -/
theorem callPushed_eq_pushed (s : State) (sp : Word) : callPushed s sp = pushed s sp (.int (wrap32 s.pc)) := rfl

section

variable {s : State} {sp : Word} {v : Value}

theorem readReg_spIndex_pushed (h : readReg s.cfg.spIndex s = .ok (.int sp)) :
    readReg s.cfg.spIndex (pushed s sp v) = .ok (.int (wrap32 (sp.toInt - 1))) :=
  readReg_setReg_self (readReg_ok_iff.1 h).1

theorem readReg_pushed_of_ne {j : Nat} (h : j ≠ s.cfg.spIndex) : readReg j (pushed s sp v) = readReg j s :=
  readReg_setReg_of_ne h

theorem memRead_pushed (a : Int) : memRead a (pushed s sp v) = memRead a (s.setSlot sp.toInt.toNat v) := rfl

theorem memRead_pushed_self (hm : 0 ≤ sp.toInt ∧ sp.toInt < s.cfg.memSize) :
    memRead sp.toInt (pushed s sp v) = .ok v := by
  rw [memRead_pushed, memRead_setSlot_self hm]

end

/-- Settles O36: the Ret of O34 reads the return address of the Call of O33 back, in the slot above the decremented
pointer. -/
theorem retUndoesCall : Obligations.RetUndoesCall := by
  intro w sp s s1 s2 _ hpc hw hsp h0 hlt hcall hcfg hreg hmem
  rw [exec_call_of_slot hsp ⟨h0, hlt⟩, callPushed_eq_pushed,
    exec_jump_of_toInt_eq (Int.toNat_of_nonneg hw).symm] at hcall
  cases hcall
  have hback : (wrap32 (sp.toInt - 1)).toInt + 1 = sp.toInt := by
    rw [wrap32_toInt_sub_one_of_nonneg h0, Int.sub_add_cancel]
  have hsp2 : readReg s2.cfg.spIndex s2 = .ok (.int (wrap32 (sp.toInt - 1))) := by
    rw [hcfg, hreg]
    exact readReg_spIndex_pushed hsp
  have hret : memRead ((wrap32 (sp.toInt - 1)).toInt + 1) s2 = .ok (.int (wrap32 s.pc)) := by
    rw [hback, hmem]
    exact memRead_pushed_self (s := s) (v := .int (wrap32 s.pc)) ⟨h0, hlt⟩
  have hra : (wrap32 s.pc).toInt = s.pc := wrap32_toInt (by omega) (by omega)
  refine ⟨_, exec_ret_of_target hsp2 hret hra, rfl, rfl, ?_⟩
  rw [hback, wrap32_of_toInt, hsp, ← hcfg]
  exact readReg_setReg_self (readReg_ok_iff.1 hsp2).1

/-- Settles O39: the Pop of O38 reads back the slot that the Push of O37 wrote, and its increment undoes the
decrement. -/
theorem popUndoesPush : Obligations.PopUndoesPush := by
  intro i q sp v s hne hsp hv h0 hlt
  have hi : i < s.cfg.regCount := (readReg_ok_iff.1 hv).1
  have hspIndex : s.cfg.spIndex < s.cfg.regCount := (readReg_ok_iff.1 hsp).1
  have hdec := wrap32_toInt_sub_one_of_nonneg h0
  have hslot : memRead sp.toInt (pushed s sp v) = .ok v := memRead_pushed_self ⟨h0, hlt⟩
  have hsp' : readReg s.cfg.spIndex (pushed s sp v) = .ok (.int (wrap32 (sp.toInt - 1))) := readReg_spIndex_pushed hsp
  have hpop : exec (.pop i) ((pushed s sp v).setPc q) =
      .next ((((pushed s sp v).setPc q).setReg i v).setReg s.cfg.spIndex (.int sp)) := by
    have hread : memRead ((wrap32 (sp.toInt - 1)).toInt + 1) ((pushed s sp v).setPc q) = .ok v := by
      rw [hdec, Int.sub_add_cancel]
      exact hslot
    rw [exec_pop_of_slot (s := (pushed s sp v).setPc q) hsp' hread hi, hdec, Int.sub_add_cancel, wrap32_of_toInt]
    rfl
  refine ⟨_, pushed s sp v, _, exec_push_of_slot hsp hv ⟨h0, hlt⟩, hslot, hsp', hdec, hpop, rfl, fun r => ?_, hslot,
    fun a ha => memRead_setSlot_of_ne (s := s) (v := v) h0 ha⟩
  by_cases hr : r = s.cfg.spIndex
  · rw [hr, hsp]
    exact readReg_setReg_self hspIndex
  · rw [readReg_setReg_of_ne hr]
    by_cases hri : r = i
    · rw [hri, hv]
      exact readReg_setReg_self hi
    · rw [readReg_setReg_of_ne hri]
      exact readReg_pushed_of_ne (s := s) (sp := sp) (v := v) hr

/-! The exact stack pointer. -/

section

variable {s u : State} {n m : Word}

theorem eq_of_readReg_int {i : Nat} (hn : readReg i s = .ok (.int n)) (hm : readReg i s = .ok (.int m)) : m = n := by
  simpa [hn, eq_comm] using hm

/-- The Integer read from a register just written is the one written. -/
theorem eq_of_readReg_setReg_int {i : Nat} {w : Word} (hm : readReg i (u.setReg i (.int w)) = .ok (.int m)) :
    m = w :=
  eq_of_readReg_int (readReg_setReg_self (s := u) (readReg_ok_iff.1 hm).1) hm

/-- The pointer after a Push or a Call that has found its slot. -/
theorem pushed_pointer (hn : readReg s.cfg.spIndex s = .ok (.int n)) {sp : Word} {v : Value}
    (hsp : readReg s.cfg.spIndex s = .ok (.int sp)) (hslot : 0 ≤ sp.toInt ∧ sp.toInt < s.cfg.memSize)
    (hm : readReg s.cfg.spIndex (pushed s sp v) = .ok (.int m)) :
    m.toInt = n.toInt - 1 ∧ 0 ≤ n.toInt ∧ n.toInt < s.cfg.memSize := by
  obtain rfl := eq_of_readReg_int hn hsp
  rw [eq_of_readReg_setReg_int hm]
  exact ⟨wrap32_toInt_sub_one_of_nonneg hslot.1, hslot⟩

/-- The pointer after a Pop or a Ret that has found its slot. -/
theorem popped_pointer (hs : s.cfg.valid) (hn : readReg s.cfg.spIndex s = .ok (.int n)) {sp : Word} {v : Value}
    (hsp : readReg s.cfg.spIndex s = .ok (.int sp)) (hv : memRead (sp.toInt + 1) s = .ok v)
    (hm : readReg s.cfg.spIndex (u.setReg s.cfg.spIndex (.int (wrap32 (sp.toInt + 1)))) = .ok (.int m)) :
    m.toInt = n.toInt + 1 ∧ 0 ≤ m.toInt ∧ m.toInt < s.cfg.memSize := by
  obtain rfl := eq_of_readReg_int hn hsp
  have hslot := (memRead_ok_iff.1 hv).1
  rw [eq_of_readReg_setReg_int hm, wrap32_toInt_of_memRead hs hv]
  exact ⟨rfl, hslot⟩

end

/-- Settles O40: an error raised before any write leaves the pointer; the other outcomes of each instruction have found
the slot. -/
theorem stackPointerNeverWraps : Obligations.StackPointerNeverWraps := by
  refine fun i n m s t hs hn h hm => ⟨?_, ?_⟩
  · rintro (⟨r, rfl⟩ | ⟨w, rfl⟩)
    · obtain ⟨c, -, rfl⟩ | ⟨sp, v, hsp, -, hslot, rfl⟩ := execPush_cases h
      · exact .inl (eq_of_readReg_int hn hm)
      · exact .inr (pushed_pointer hn hsp hslot hm)
    · obtain ⟨c, -, rfl⟩ | ⟨sp, hsp, hslot, ⟨-, rfl⟩ | ⟨-, rfl⟩⟩ := execCall_cases h
      · exact .inl (eq_of_readReg_int hn hm)
      · exact .inr (pushed_pointer hn hsp hslot hm)
      · exact .inr (pushed_pointer hn hsp hslot hm)
  · rintro (⟨r, rfl⟩ | rfl)
    · obtain ⟨c, -, rfl⟩ | ⟨sp, v, hsp, hv, -, rfl⟩ := execPop_cases h
      · exact .inl (eq_of_readReg_int hn hm)
      · exact .inr (popped_pointer hs hn hsp hv hm)
    · obtain ⟨c, -, rfl⟩ | ⟨sp, w, hsp, hv, -, rfl⟩ := execRet_cases h
      · exact .inl (eq_of_readReg_int hn hm)
      · exact .inr (popped_pointer hs hn hsp hv hm)

end Sys2Proof.Machine

/-! PROOFS. The family other, texts: Echo and the decimal numeral (R210 to R212, G1), the open draws (R161, R212), and
the recommended reading of PARSE_INT (R213, G2). -/

namespace Sys2Proof.Machine

open Sys2Proof

/-! Decimal numerals. -/

/-- `ds` is the numeral of the natural number `n`: digits with no leading zero. -/
structure IsNatNumeral (n : Nat) (ds : Text) : Prop where
  digits : IsDigits ds
  lead : ds.head? = some '0' → ds = ['0']
  value : digitsValue ds = n

theorem digitChar_toNat {d : Nat} (h : d < 10) : (digitChar d).toNat = 48 + d := by
  have hall : ∀ e < 10, (digitChar e).toNat = 48 + e := by decide
  exact hall d h

theorem isDigits_append_digit {ds : Text} {d : Nat} (h : ∀ c ∈ ds, 48 ≤ c.toNat ∧ c.toNat ≤ 57) (hd : d < 10) :
    IsDigits (ds ++ [digitChar d]) := by
  refine ⟨by simp, fun c hc => ?_⟩
  obtain hc | hc := List.mem_append.1 hc
  · exact h c hc
  · rw [List.mem_singleton.1 hc, digitChar_toNat hd]
    omega

theorem digitsValue_append_digit (ds : Text) {d : Nat} (hd : d < 10) :
    digitsValue (ds ++ [digitChar d]) = 10 * digitsValue ds + d := by
  simp [digitsValue, digitChar_toNat hd]

theorem isNatNumeral_digit {d : Nat} (hd : d < 10) : IsNatNumeral d [digitChar d] where
  digits := isDigits_append_digit (ds := []) (by simp) hd
  lead := by simp
  value := (digitsValue_append_digit [] hd).trans (Nat.zero_add d)

/-- A digit after the numeral of a positive number: the leading digit is still not zero. -/
theorem IsNatNumeral.append_digit {n d : Nat} {ds : Text} (h : IsNatNumeral n ds) (hn : 0 < n) (hd : d < 10) :
    IsNatNumeral (10 * n + d) (ds ++ [digitChar d]) where
  digits := isDigits_append_digit h.digits.2 hd
  lead hlead := by
    rw [List.head?_append_of_ne_nil _ h.digits.1] at hlead
    have hzero : digitsValue ds = 0 := by
      rw [h.lead hlead]
      rfl
    have hvalue := h.value
    omega
  value := by rw [digitsValue_append_digit ds hd, h.value]

theorem digitsBefore_eq_append (fuel n : Nat) (acc : Text) :
    digitsBefore fuel n acc = digitsBefore fuel n [] ++ acc := by
  induction fuel generalizing n acc with
  | zero => rfl
  | succ fuel ih =>
    simp only [digitsBefore]
    split
    · rfl
    · rw [ih _ (_ :: acc), ih _ [_], List.append_assoc, List.singleton_append]

/-- With as many digits as `n` needs, the digits are its numeral. -/
theorem isNatNumeral_digitsBefore {fuel n : Nat} (h : n < 10 ^ (fuel + 1)) :
    IsNatNumeral n (digitsBefore (fuel + 1) n []) := by
  induction fuel generalizing n with
  | zero =>
    have hn : n < 10 := h
    rw [digitsBefore, if_pos hn]
    exact isNatNumeral_digit hn
  | succ fuel ih =>
    rw [digitsBefore]
    split
    next hn => exact isNatNumeral_digit hn
    next hn =>
      have hshort : n / 10 < 10 ^ (fuel + 1) := by
        rw [Nat.pow_succ] at h
        omega
      have hsplit : 10 * (n / 10) + n % 10 = n := Nat.div_add_mod n 10
      have hnum := (ih hshort).append_digit (d := n % 10) (by omega) (by omega)
      rw [hsplit] at hnum
      rwa [digitsBefore_eq_append]

/-- Ten digits are enough for the magnitude of an `i32` (R210). -/
theorem isNumeral_decimal (k : Word) : IsNumeral k.toInt (decimal k) := by
  have hbounds := word_toInt_bounds k
  obtain ⟨hdigits, hlead, hvalue⟩ : IsNatNumeral k.toInt.natAbs (decimalNat k.toInt.natAbs) :=
    isNatNumeral_digitsBefore (by omega)
  exact ⟨_, hdigits, hlead, congrArg Int.ofNat hvalue, rfl⟩

/-! Echo. -/

section

variable {s : State} {d : Loc}

theorem exec_echo_of_holds {v : Value} (h : LocHolds s d v) :
    exec (.echo d) s =
      .next { s with out := s.out ++ [reprText s.draws v], draws := s.draws + reprDraws v } := by
  simp [exec, execEcho, resolveReadLoc_ok_iff.2 h, State.emit, State.addDraws]

theorem exec_echo_of_raises {c : Cause} (h : LocRaises s d (.base .echo 0) c) :
    exec (.echo d) s = .next (s.raise s.instrAddr c) := by
  simp [exec, execEcho, resolveReadLoc_error_iff.2 h]

end

/-- Settles O42: the string is `reprText` of the Value read, by tag; the errors are those of the one read. -/
theorem echoResultAndErrors : Obligations.EchoResultAndErrors := by
  refine fun d s => ⟨fun v hv => ⟨_, _, exec_echo_of_holds hv, ?_, ?_⟩, fun p c hp hc => ?_⟩
  · rintro k rfl
    exact ⟨isNumeral_decimal k, rfl⟩
  · rintro u rfl
    exact ⟨rfl, rfl⟩
  · rw [exec_echo_of_raises hc, raise_instrAddr_of_pc hp]

/-- Settles O43: TestEquals is that of O30 and Echo that of O42, on the tags for which each makes its one draw. -/
theorem openResultsAreDrawn : Obligations.OpenResultsAreDrawn := by
  refine fun i j d v s => ⟨fun hi hj => exec_testEquals_of_reads hi hj,
    fun p q hi hj => exec_testEquals_of_reads hi hj, fun hv htag => ?_⟩
  rw [exec_echo_of_holds hv]
  cases v with
  | int n => simp [Value.tag] at htag
  | text t => simp [Value.tag] at htag
  | insn p => rfl
  | empty => rfl

/-! The recommended reading of PARSE_INT. -/

theorem digitValue_eq_some_iff {c : Char} {d : Nat} :
    digitValue c = some d ↔ (48 ≤ c.toNat ∧ c.toNat ≤ 57) ∧ c.toNat - 48 = d := by
  simp [digitValue]

theorem parseDigits_eq_some_iff {t : Text} {acc n : Nat} :
    parseDigits t acc = some n ↔
      (∀ c ∈ t, 48 ≤ c.toNat ∧ c.toNat ≤ 57) ∧ t.foldl (fun n c => 10 * n + (c.toNat - 48)) acc = n := by
  induction t generalizing acc with
  | nil => simp [parseDigits]
  | cons c cs ih =>
    rw [parseDigits, List.forall_mem_cons, List.foldl_cons]
    cases hd : digitValue c with
    | none =>
      have hc : ¬(48 ≤ c.toNat ∧ c.toNat ≤ 57) := fun hc => by
        simp [digitValue_eq_some_iff.2 ⟨hc, rfl⟩] at hd
      simp [hc]
    | some d =>
      obtain ⟨hc, rfl⟩ := digitValue_eq_some_iff.1 hd
      simp [ih, hc]

theorem parseNat_eq_some_iff {t : Text} {n : Nat} : parseNat t = some n ↔ IsDigits t ∧ digitsValue t = n := by
  cases t with
  | nil => simp [parseNat]
  | cons c cs => simp [parseNat, parseDigits_eq_some_iff, digitsValue, IsDigits]

/-- `t` is an optional sign and one or more ASCII digits, with the value `z`. -/
def IsSignedDigits (z : Int) (t : Text) : Prop :=
  ∃ sign ds : Text, (sign = [] ∨ sign = ['+'] ∨ sign = ['-']) ∧ t = sign ++ ds ∧ IsDigits ds ∧
    z = if sign = ['-'] then -(digitsValue ds : Int) else (digitsValue ds : Int)

theorem parseSigned_minus (ds : Text) :
    parseSigned ('-' :: ds) = (parseNat ds).map fun n : Nat => -(n : Int) := rfl

theorem parseSigned_plus (ds : Text) : parseSigned ('+' :: ds) = (parseNat ds).map fun n : Nat => (n : Int) := rfl

theorem parseSigned_of_unsigned {c : Char} (hminus : c ≠ '-') (hplus : c ≠ '+') (cs : Text) :
    parseSigned (c :: cs) = (parseNat (c :: cs)).map fun n : Nat => (n : Int) := by
  rw [parseSigned, if_neg hminus, if_neg hplus]

/-- No sign is a digit, so digits alone are read without a sign. -/
theorem parseSigned_of_isDigits {ds : Text} (h : IsDigits ds) : parseSigned ds = some (digitsValue ds : Int) := by
  obtain ⟨c, cs, rfl⟩ := List.exists_cons_of_ne_nil h.1
  have hc := h.2 c List.mem_cons_self
  have hminus : c ≠ '-' := by
    rintro rfl
    exact absurd hc (by decide)
  have hplus : c ≠ '+' := by
    rintro rfl
    exact absurd hc (by decide)
  rw [parseSigned_of_unsigned hminus hplus, parseNat_eq_some_iff.2 ⟨h, rfl⟩, Option.map_some]

theorem parseSigned_eq_some_iff {t : Text} {z : Int} : parseSigned t = some z ↔ IsSignedDigits z t := by
  constructor
  · intro h
    cases t with
    | nil => cases h
    | cons c cs =>
      by_cases hminus : c = '-'
      · subst hminus
        obtain ⟨n, hn, rfl⟩ := Option.map_eq_some_iff.1 ((parseSigned_minus cs).symm.trans h)
        obtain ⟨hds, rfl⟩ := parseNat_eq_some_iff.1 hn
        exact ⟨['-'], cs, .inr (.inr rfl), rfl, hds, rfl⟩
      · by_cases hplus : c = '+'
        · subst hplus
          obtain ⟨n, hn, rfl⟩ := Option.map_eq_some_iff.1 ((parseSigned_plus cs).symm.trans h)
          obtain ⟨hds, rfl⟩ := parseNat_eq_some_iff.1 hn
          exact ⟨['+'], cs, .inr (.inl rfl), rfl, hds, rfl⟩
        · rw [parseSigned_of_unsigned hminus hplus] at h
          obtain ⟨n, hn, rfl⟩ := Option.map_eq_some_iff.1 h
          obtain ⟨hds, rfl⟩ := parseNat_eq_some_iff.1 hn
          exact ⟨[], c :: cs, .inl rfl, rfl, hds, rfl⟩
  · rintro ⟨sign, ds, rfl | rfl | rfl, rfl, hds, rfl⟩
    · exact parseSigned_of_isDigits hds
    · rw [List.singleton_append, parseSigned_plus, parseNat_eq_some_iff.2 ⟨hds, rfl⟩]
      rfl
    · rw [List.singleton_append, parseSigned_minus, parseNat_eq_some_iff.2 ⟨hds, rfl⟩]
      rfl

/-- The range check keeps exactly the values an `i32` has. -/
theorem parseRecommended_eq_some_iff {t : Text} {n : Word} :
    parseRecommended t = some n ↔ parseSigned t = some n.toInt := by
  unfold parseRecommended
  cases hz : parseSigned t with
  | none => simp
  | some z =>
    dsimp only
    rw [Option.some_inj]
    constructor
    · intro h
      split at h
      next hrange =>
        cases h
        exact (wrap32_toInt hrange.1 hrange.2).symm
      next => cases h
    · rintro rfl
      rw [if_pos (word_toInt_bounds n), wrap32_of_toInt]

/-- Settles O45: the range check of R213 on the reading of an optional sign and digits. -/
theorem recommendedParserAcceptsExactlyNumerals : Obligations.RecommendedParserAcceptsExactlyNumerals :=
  fun _ _ => parseRecommended_eq_some_iff.trans parseSigned_eq_some_iff

end Sys2Proof.Machine
